-- ==== Sys2Proof/Word.lean ====
section
/-! DEFINITION. The word types of PCBA-1 and the two alphabets of its operand fields: bank numbers
(30_encoding.md R57) and the INFO selector (40_lifecycle.md R73). -/

namespace Sys2Proof

/-- A command word, `CMDW = 32` bits (00_scope.md R4, 30_encoding.md R52); the response data has the
same width, `DATAW = 32` (R62). -/
abbrev Word := BitVec 32

/-- A byte of a bank's buffer, the document's bucket (10_state.md R15). -/
abbrev Byte := BitVec 8

/-- A bank number `0..3` (10_state.md R10), the value of the fields `rd`, `ra` and `rb` (30_encoding.md R57). -/
inductive BankId where
  | b0 | b1 | b2 | b3
  deriving DecidableEq, Repr

/-- The selector of INFO: `N` (0), `K` (1), `BC` (2), `V` (3) (30_encoding.md R63, 40_lifecycle.md R73). -/
inductive InfoSel where
  | n | k | bc | valid
  deriving DecidableEq, Repr

end Sys2Proof
end

