-- ==== Sys2Proof/Syntax.lean ====
section
/-! DEFINITION. The twelve commands of PCBA-1, one constructor per row of spec/opcode_table.json (30_encoding.md
R53). The operands have the widths of their fields, so that every value of every used field is a command and no
other value can be written (R55, R56). -/

namespace Sys2Proof

/-- A command. The order of the operands is the one of 30_encoding.md R53 and R63. -/
inductive Instr where
  /-- `CREATE rd, k, n` (40_lifecycle.md R70). -/
  | create (rd : BankId) (k : BitVec 8) (n : BitVec 16)
  /-- `FREE rd` (40_lifecycle.md R71). -/
  | free (rd : BankId)
  /-- `COPY rd, ra` (40_lifecycle.md R72). -/
  | copy (rd ra : BankId)
  /-- `INFO ra, sel` (40_lifecycle.md R73). -/
  | info (ra : BankId) (sel : InfoSel)
  /-- `COUNT ra, e` (41_counter_access.md R80). -/
  | count (ra : BankId) (e : BitVec 16)
  /-- `INC rd, e` (41_counter_access.md R81). -/
  | inc (rd : BankId) (e : BitVec 16)
  /-- `COMPL rd, ra` (42_set_operators.md R101). -/
  | compl (rd ra : BankId)
  /-- `ISECT rd, ra, rb` (42_set_operators.md R103). -/
  | isect (rd ra rb : BankId)
  /-- `ISECTL rd, ra, rb` (42_set_operators.md R105). -/
  | isectl (rd ra rb : BankId)
  /-- `DIFF rd, ra, rb` (42_set_operators.md R107). -/
  | diff (rd ra rb : BankId)
  /-- `RDB ra, idx` (43_raw_byte_access.md R120). -/
  | rdb (ra : BankId) (idx : BitVec 16)
  /-- `WRB rd, idx, byte` (43_raw_byte_access.md R121). -/
  | wrb (rd : BankId) (idx : BitVec 16) (byte : Byte)
  deriving DecidableEq, Repr

end Sys2Proof
end

