-- ==== Sys2Proof/WellFormed.lean ====
section
/-! DEFINITION. Well-formedness, where it can fail: in the assembler line of 30_encoding.md R63, whose numbers are
written by hand and may be of any size. A line is well formed when every operand is in the range R63 shows. A
command of `Instr` is well formed when the line it prints to is; its operand types make that so for every one. -/

namespace Sys2Proof

/-- One assembler line, mnemonic and operands in the order of 30_encoding.md R63, every operand a number as it was
written (`bD` by its digit, the INFO selector by its number). -/
inductive Asm where
  | create (d k n : Nat)
  | free (d : Nat)
  | copy (d a : Nat)
  | info (a sel : Nat)
  | count (a e : Nat)
  | inc (d e : Nat)
  | compl (d a : Nat)
  | isect (d a b : Nat)
  | isectl (d a b : Nat)
  | diff (d a b : Nat)
  | rdb (a idx : Nat)
  | wrb (d idx byte : Nat)
  deriving DecidableEq, Repr

/-- A bank is `b0` to `b3` (30_encoding.md R63). -/
def bankInRange (d : Nat) : Bool := decide (d < 4)

/-- The INFO selector is `0..3` (30_encoding.md R63). -/
def selInRange (v : Nat) : Bool := decide (v < 4)

/-- `k` and `byte` are `0..255` (30_encoding.md R63). -/
def imm8InRange (v : Nat) : Bool := decide (v < 256)

/-- `n`, `e` and `idx` are `0..65535` (30_encoding.md R63). -/
def imm16InRange (v : Nat) : Bool := decide (v < 65536)

/-- Every operand is inside the range shown in 30_encoding.md R63; the assembler refuses any other line (R64). -/
def Asm.wf : Asm → Bool
  | .create d k n => bankInRange d && imm8InRange k && imm16InRange n
  | .free d => bankInRange d
  | .copy d a => bankInRange d && bankInRange a
  | .info a sel => bankInRange a && selInRange sel
  | .count a e => bankInRange a && imm16InRange e
  | .inc d e => bankInRange d && imm16InRange e
  | .compl d a => bankInRange d && bankInRange a
  | .isect d a b => bankInRange d && bankInRange a && bankInRange b
  | .isectl d a b => bankInRange d && bankInRange a && bankInRange b
  | .diff d a b => bankInRange d && bankInRange a && bankInRange b
  | .rdb a idx => bankInRange a && imm16InRange idx
  | .wrb d idx byte => bankInRange d && imm16InRange idx && imm8InRange byte

/-- The number of a bank (10_state.md R10). -/
def BankId.num : BankId → Nat
  | .b0 => 0
  | .b1 => 1
  | .b2 => 2
  | .b3 => 3

/-- The number of an INFO selector (30_encoding.md R63). -/
def InfoSel.num : InfoSel → Nat
  | .n => 0
  | .k => 1
  | .bc => 2
  | .valid => 3

/-- The assembler line of a command (30_encoding.md R63). -/
def Instr.toAsm : Instr → Asm
  | .create rd k n => .create rd.num k.toNat n.toNat
  | .free rd => .free rd.num
  | .copy rd ra => .copy rd.num ra.num
  | .info ra sel => .info ra.num sel.num
  | .count ra e => .count ra.num e.toNat
  | .inc rd e => .inc rd.num e.toNat
  | .compl rd ra => .compl rd.num ra.num
  | .isect rd ra rb => .isect rd.num ra.num rb.num
  | .isectl rd ra rb => .isectl rd.num ra.num rb.num
  | .diff rd ra rb => .diff rd.num ra.num rb.num
  | .rdb ra idx => .rdb ra.num idx.toNat
  | .wrb rd idx byte => .wrb rd.num idx.toNat byte.toNat

/-- A command is well formed when its assembler line is. -/
def Instr.wf (i : Instr) : Bool := i.toAsm.wf

end Sys2Proof
end

