-- ==== Sys2Proof/Decode.lean ====
section
/-! DEFINITION. The command word (30_encoding.md R52 to R58): its fields, the encoding table, the decoder, which is
total on 32-bit words and rejects by name, and the encoder. A command word is not stored anywhere (R61), so no byte
order is involved: the decoder takes the word that stands on the port `cmd_word` (DEDUCED, log 12). -/

namespace Sys2Proof

/-! ### Fields -/

/-- `op = cmd[31:28]` (30_encoding.md R52). -/
def opField (w : Word) : BitVec 4 := w.extractLsb' 28 4

/-- `rd = cmd[27:26]` (30_encoding.md R52). -/
def rdField (w : Word) : BitVec 2 := w.extractLsb' 26 2

/-- `ra = cmd[25:24]` (30_encoding.md R52). -/
def raField (w : Word) : BitVec 2 := w.extractLsb' 24 2

/-- `f8 = cmd[23:16]`, the field of `k` and `byte` (30_encoding.md R52, R56). -/
def f8Field (w : Word) : BitVec 8 := w.extractLsb' 16 8

/-- `cmd[17:16]`, the sub-field of `rb` and `sel` (30_encoding.md R52). -/
def subField (w : Word) : BitVec 2 := w.extractLsb' 16 2

/-- `f16 = cmd[15:0]`, the field of `n`, `e` and `idx` (30_encoding.md R52, R56). -/
def f16Field (w : Word) : BitVec 16 := w.extractLsb' 0 16

/-- The bank a two-bit field names (30_encoding.md R57). -/
def BankId.ofBits (v : BitVec 2) : BankId :=
  match v.toNat with
  | 0 => .b0
  | 1 => .b1
  | 2 => .b2
  | _ => .b3

/-- The two-bit field of a bank (30_encoding.md R57). -/
def BankId.bits (i : BankId) : BitVec 2 := BitVec.ofNat 2 i.num

/-- The selector a two-bit field names (40_lifecycle.md R73). -/
def InfoSel.ofBits (v : BitVec 2) : InfoSel :=
  match v.toNat with
  | 0 => .n
  | 1 => .k
  | 2 => .bc
  | _ => .valid

/-- The two-bit field of a selector (40_lifecycle.md R73). -/
def InfoSel.bits (q : InfoSel) : BitVec 2 := BitVec.ofNat 2 q.num

/-! ### The encoding table -/

/-- One row of the table of 30_encoding.md R54: a word `w` is the command exactly when `w & mask = bits` (`bits` is the
column the spec calls match). -/
structure EncRow where
  mnemonic : String
  mask : Word
  bits : Word
  deriving DecidableEq, Repr

/-- `w & mask = match` (30_encoding.md R54). -/
def EncRow.accepts (r : EncRow) (w : Word) : Bool := w &&& r.mask == r.bits

def rowCreate : EncRow := ⟨"CREATE", 0xF3000000#32, 0x10000000#32⟩
def rowFree : EncRow := ⟨"FREE", 0xF3FFFFFF#32, 0x20000000#32⟩
def rowCopy : EncRow := ⟨"COPY", 0xF0FFFFFF#32, 0x30000000#32⟩
def rowInfo : EncRow := ⟨"INFO", 0xFCFCFFFF#32, 0x40000000#32⟩
def rowCount : EncRow := ⟨"COUNT", 0xFCFF0000#32, 0x50000000#32⟩
def rowInc : EncRow := ⟨"INC", 0xF3FF0000#32, 0x60000000#32⟩
def rowCompl : EncRow := ⟨"COMPL", 0xF0FFFFFF#32, 0x70000000#32⟩
def rowIsect : EncRow := ⟨"ISECT", 0xF0FCFFFF#32, 0x80000000#32⟩
def rowIsectl : EncRow := ⟨"ISECTL", 0xF0FCFFFF#32, 0x90000000#32⟩
def rowDiff : EncRow := ⟨"DIFF", 0xF0FCFFFF#32, 0xA0000000#32⟩
def rowRdb : EncRow := ⟨"RDB", 0xFCFF0000#32, 0xB0000000#32⟩
def rowWrb : EncRow := ⟨"WRB", 0xF3000000#32, 0xC0000000#32⟩

/-- The twelve rows of 30_encoding.md R54, in its order. -/
def encodingTable : List EncRow :=
  [rowCreate, rowFree, rowCopy, rowInfo, rowCount, rowInc, rowCompl, rowIsect, rowIsectl, rowDiff, rowRdb, rowWrb]

/-- The row of a command (30_encoding.md R54). -/
def Instr.row : Instr → EncRow
  | .create _ _ _ => rowCreate
  | .free _ => rowFree
  | .copy _ _ => rowCopy
  | .info _ _ => rowInfo
  | .count _ _ => rowCount
  | .inc _ _ => rowInc
  | .compl _ _ => rowCompl
  | .isect _ _ _ => rowIsect
  | .isectl _ _ _ => rowIsectl
  | .diff _ _ _ => rowDiff
  | .rdb _ _ => rowRdb
  | .wrb _ _ _ => rowWrb

/-! ### The decoder -/

/-- Why a word is no command. Both are answered `ERR_ILLEGAL` (30_encoding.md R55, R58; log 15): safe, nothing
is executed. -/
inductive DecodeError where
  /-- `op` is 0x0, 0xD, 0xE or 0xF (30_encoding.md R58). -/
  | reservedOpcode
  /-- The opcode is defined and a must-be-zero bit is 1 (30_encoding.md R55). -/
  | mustBeZeroBitSet
  deriving DecidableEq, Repr

/-- The word is the command `i` if row `r` accepts it (30_encoding.md R55). -/
def EncRow.select (r : EncRow) (w : Word) (i : Instr) : Except DecodeError Instr :=
  if r.accepts w then .ok i else .error .mustBeZeroBitSet

/-- The decoder of 30_encoding.md R55, total on 32-bit words: it takes the row whose `op` equals `w[31:28]`, refuses a
word that has no row or that the row does not accept, and reads the fields at the positions of R52. -/
def decode (w : Word) : Except DecodeError Instr :=
  match (opField w).toNat with
  | 0x1 => rowCreate.select w (.create (.ofBits (rdField w)) (f8Field w) (f16Field w))
  | 0x2 => rowFree.select w (.free (.ofBits (rdField w)))
  | 0x3 => rowCopy.select w (.copy (.ofBits (rdField w)) (.ofBits (raField w)))
  | 0x4 => rowInfo.select w (.info (.ofBits (raField w)) (.ofBits (subField w)))
  | 0x5 => rowCount.select w (.count (.ofBits (raField w)) (f16Field w))
  | 0x6 => rowInc.select w (.inc (.ofBits (rdField w)) (f16Field w))
  | 0x7 => rowCompl.select w (.compl (.ofBits (rdField w)) (.ofBits (raField w)))
  | 0x8 => rowIsect.select w (.isect (.ofBits (rdField w)) (.ofBits (raField w)) (.ofBits (subField w)))
  | 0x9 => rowIsectl.select w (.isectl (.ofBits (rdField w)) (.ofBits (raField w)) (.ofBits (subField w)))
  | 0xA => rowDiff.select w (.diff (.ofBits (rdField w)) (.ofBits (raField w)) (.ofBits (subField w)))
  | 0xB => rowRdb.select w (.rdb (.ofBits (raField w)) (f16Field w))
  | 0xC => rowWrb.select w (.wrb (.ofBits (rdField w)) (f16Field w) (f8Field w))
  | _ => .error .reservedOpcode

/-! ### The encoder -/

/-- The word with the five fields of 30_encoding.md R52, `op` the most significant. -/
def packWord (op : BitVec 4) (rd ra : BitVec 2) (f8 : BitVec 8) (f16 : BitVec 16) : Word :=
  op ++ rd ++ ra ++ f8 ++ f16

/-- `rb` or `sel` in `f8`: `cmd[23:18]` is zero (30_encoding.md R52). -/
def subImm (v : BitVec 2) : BitVec 8 := 0#6 ++ v

/-- The word of a command, from the columns of 30_encoding.md R54. -/
def encode : Instr → Word
  | .create rd k n => packWord 0x1#4 rd.bits 0#2 k n
  | .free rd => packWord 0x2#4 rd.bits 0#2 0#8 0#16
  | .copy rd ra => packWord 0x3#4 rd.bits ra.bits 0#8 0#16
  | .info ra sel => packWord 0x4#4 0#2 ra.bits (subImm sel.bits) 0#16
  | .count ra e => packWord 0x5#4 0#2 ra.bits 0#8 e
  | .inc rd e => packWord 0x6#4 rd.bits 0#2 0#8 e
  | .compl rd ra => packWord 0x7#4 rd.bits ra.bits 0#8 0#16
  | .isect rd ra rb => packWord 0x8#4 rd.bits ra.bits (subImm rb.bits) 0#16
  | .isectl rd ra rb => packWord 0x9#4 rd.bits ra.bits (subImm rb.bits) 0#16
  | .diff rd ra rb => packWord 0xA#4 rd.bits ra.bits (subImm rb.bits) 0#16
  | .rdb ra idx => packWord 0xB#4 0#2 ra.bits 0#8 idx
  | .wrb rd idx byte => packWord 0xC#4 rd.bits 0#2 byte idx

/-! ### The host's numbering of the opcode table -/

/-- The command word of a table row whose `nbits` bits are `w`, bit 0 the least significant; every bit above `nbits`
is 0. There is one length, 32 bits (30_encoding.md R52). -/
def tableWord (nbits w : Nat) : Word := BitVec.ofNat 32 (w % 2 ^ nbits)

/-- The instruction the decoder reads from a row's word. -/
def decodeTableWord (nbits w : Nat) : Option Instr :=
  match decode (tableWord nbits w) with
  | .ok i => some i
  | .error _ => none

end Sys2Proof
end

