-- ==== Sys2Proof/Config.lean ====
section
/-! DEFINITION. The parameters of the block (00_scope.md R4): the fixed ones as constants, and the OPEN one,
`BMAX`, as the configuration a machine is built with. -/

namespace Sys2Proof

/-- Least counter width in bits (00_scope.md R4). -/
def kMin : Nat := 1

/-- Greatest counter width in bits (00_scope.md R4). -/
def kMax : Nat := 8

/-- Greatest value the OPEN parameter `BMAX` can have (00_scope.md R4, 92_eei_decisions.md D9). -/
def bmaxLimit : Nat := 65536

/-- What an implementation fixes. DESIGN CHOICE (log 2): the parameter is carried in the machine state, where no
step writes it, so that the model takes it as an argument and every statement speaks of every value of it. -/
structure Config where
  /-- `BMAX`, the capacity of each bank's buffer in bytes, `1 <= BMAX <= 65536` (00_scope.md R4). -/
  bmax : Nat
  deriving DecidableEq, Repr

/-- The range of `BMAX` (00_scope.md R4). -/
def Config.wf (c : Config) : Bool := decide (1 ≤ c.bmax) && decide (c.bmax ≤ bmaxLimit)

end Sys2Proof
end

