-- ==== Sys2Proof/Machine/State.lean ====
section
/-! DEFINITION. The state of the block (10_state.md R10 to R26, 30_encoding.md R50 and R51), the reasons a step can
stop, and the machine right after reset (70_reset_and_hazards.md R150, R151). -/

namespace Sys2Proof.Machine

/-- The bytes of one bank's buffer (10_state.md R15): a list of address and byte pairs with strictly rising addresses
and no entry for a byte equal to what an unlisted address reads as (log 6). -/
abbrev Memory := List Host.Cell

/-- What an occupied bank holds, the document's `PackedMultiset`: the fields of 10_state.md R12 to R15. -/
structure PackedMultiset where
  /-- Inclusive upper bound of the element domain, `NW = 16` bits (10_state.md R12). -/
  n : BitVec 16
  /-- Width of a counter in bits, `KW_STORE = 4` bits, `1..8` in an occupied bank (10_state.md R13). -/
  k : BitVec 4
  /-- `bucketsCount`, `BCW = 17` bits (10_state.md R14). -/
  bc : BitVec 17
  /-- The byte buffer `buckets[0 .. bc - 1]` (10_state.md R15). -/
  buckets : Memory
  deriving DecidableEq, Repr

/-- A bank (10_state.md R10). An empty bank has no observable `n`, `k`, `bc` or `buckets`, and two states that differ
only there are the same state (R19), so it holds none of them. DESIGN CHOICE (log 1), allowed by R19. -/
inductive Bank where
  /-- `valid = 0`. -/
  | empty
  /-- `valid = 1` (10_state.md R11). -/
  | occupied (m : PackedMultiset)
  deriving DecidableEq, Repr

/-- The response status: exactly the seven values of 60_exceptions.md R130. -/
inductive Status where
  /-- The command was executed. -/
  | ok
  /-- The word is not a command (60_exceptions.md R131). -/
  | illegal
  /-- A bank the command needs occupied is empty (60_exceptions.md R132). -/
  | noinst
  /-- The destination bank is occupied (60_exceptions.md R133). -/
  | busy
  /-- CREATE with `k` outside `1..8` (60_exceptions.md R134). -/
  | width
  /-- CREATE needs more than `BMAX` bytes (60_exceptions.md R135). -/
  | capacity
  /-- COUNT with `e > n`, RDB or WRB with `idx >= bc` (60_exceptions.md R136). -/
  | range
  deriving DecidableEq, Repr

/-- A response, the pair of 30_encoding.md R62. -/
structure Response where
  status : Status
  data : Word
  deriving DecidableEq, Repr

/-- Where the block stands in the protocol of 30_encoding.md R51. -/
inductive Port where
  /-- `cmd_ready = 1`, `rsp_valid = 0`: no command in flight. -/
  | idle
  /-- A command was accepted and is being executed: `cmd_ready = 0`, `rsp_valid = 0`. -/
  | executing (w : Word)
  /-- `rsp_valid = 1`: the response is held unchanged until it is taken. -/
  | responding (r : Response)
  deriving DecidableEq, Repr

/-- What the host drives on the block's input ports at one rising edge of `clk` (30_encoding.md R50). Several
hosts are one stream here (log 14). -/
structure HostPins where
  rst : Bool
  cmdValid : Bool
  cmdWord : Word
  rspReady : Bool
  deriving DecidableEq, Repr

/-- The state: the four banks (10_state.md R10, R24), the state of the port (70_reset_and_hazards.md R151), and two
fields of the model's own: the parameter `BMAX`, which no step writes (log 2), and what the host will drive at the
coming clock edges, nearest first (log 3). -/
structure State where
  cfg : Config
  b0 : Bank
  b1 : Bank
  b2 : Bank
  b3 : Bank
  port : Port
  host : List HostPins
  deriving DecidableEq, Repr

/-- Reasons to stop with a fault: none. Every accepted command ends with a response whatever the state and whatever
the word, and there is no hang and no stuck state (70_reset_and_hazards.md R160); an error is a response status
(60_exceptions.md R140). DEDUCED (log 13), safe. -/
inductive Fault where
  deriving DecidableEq, Repr

/-- Reasons to refuse an instruction. -/
inductive Refusal where
  /-- Raised by an arm of `exec` for an instruction that has no meaning yet; no arm raises it now. Safe: the machine
  stops where the hardware would go on. -/
  | notModelled (mnemonic : String)
  deriving DecidableEq, Repr

/-- The machine right after reset (70_reset_and_hazards.md R150, R151): four empty banks, no command in flight, no
response pending. The model's own fields: DESIGN CHOICE `BMAX = 65536` (log 2), and a host that drives nothing
(log 3). -/
def State.reset : State where
  cfg := { bmax := 65536 }
  b0 := .empty
  b1 := .empty
  b2 := .empty
  b3 := .empty
  port := .idle
  host := []

end Sys2Proof.Machine
end

