-- ==== Sys2Proof/Machine/Flags.lean ====
section
/-! DEFINITION. There are no flags, condition codes or predicates: the outcome of a command is its response status
(10_state.md R23). This file holds what stands in their place, the status codes on `rsp_status`, and the order of the
errors. -/

namespace Sys2Proof.Machine

/-- The 4-bit code of a status (60_exceptions.md R130). -/
def Status.code : Status → BitVec 4
  | .ok => 0#4
  | .illegal => 1#4
  | .noinst => 2#4
  | .busy => 3#4
  | .width => 4#4
  | .capacity => 5#4
  | .range => 6#4

/-- The error statuses in the order in which they are tested (60_exceptions.md R139). -/
def Status.priority : List Status := [.illegal, .noinst, .busy, .width, .capacity, .range]

end Sys2Proof.Machine
end

