-- ==== Sys2Proof/Machine/Memory.lean ====
section
/-! DEFINITION. The byte buffer of a bank (20_memory.md R30, R35, R41): reading and writing a byte and a two-byte
window, making a buffer, its canonical form, and its view as a bit stream (00_scope.md R5). -/

namespace Sys2Proof.Machine

/-- What an address that no cell lists reads as: 0, the value CREATE gives every byte (40_lifecycle.md R70, 10_state.md
R15; log 6). -/
def Memory.unlisted : Byte := 0#8

/-- `MemRead(i, a, 1)`, byte `a` (00_scope.md R7). -/
def Memory.read : Memory → Nat → Byte
  | [], _ => Memory.unlisted
  | (b, y) :: t, a => if a = b then y else Memory.read t a

/-- A cell, or none where the byte is what an unlisted address reads as. -/
def Memory.cell (a : Nat) (y : Byte) : Memory := if y = Memory.unlisted then [] else [(a, y)]

/-- `MemWrite(i, a, 1, v)`, byte `a` becomes `y` (00_scope.md R7); keeps the canonical form. -/
def Memory.write : Memory → Nat → Byte → Memory
  | [], a, y => Memory.cell a y
  | (b, x) :: t, a, y =>
    if a < b then Memory.cell a y ++ (b, x) :: t
    else if a = b then Memory.cell a y ++ t
    else (b, x) :: Memory.write t a y

/-- `MemRead(i, a, 2)`: byte `a` in the high half, byte `a + 1` in the low half (00_scope.md R7, 20_memory.md R35). -/
def Memory.readWindow (m : Memory) (a : Nat) : BitVec 16 := m.read a ++ m.read (a + 1)

/-- `MemWrite(i, a, 2, v)`: byte `a` becomes `v[15:8]`, byte `a + 1` becomes `v[7:0]` (00_scope.md R7). -/
def Memory.writeWindow (m : Memory) (a : Nat) (v : BitVec 16) : Memory :=
  (m.write a (v.extractLsb' 8 8)).write (a + 1) (v.extractLsb' 0 8)

/-- The buffer right after CREATE: every byte 0 (40_lifecycle.md R70), in canonical form. -/
def Memory.zeroFilled : Memory := []

/-- The buffer whose bytes `0 .. c - 1` are `f 0 .. f (c - 1)`, in canonical form. -/
def Memory.tabulate (c : Nat) (f : Nat → Byte) : Memory := (List.range c).flatMap fun j => Memory.cell j (f j)

/-- The canonical form from address `lo` up: addresses strictly rising, no byte that need not be listed. -/
def Memory.wfFrom : Nat → Memory → Bool
  | _, [] => true
  | lo, (a, y) :: t => decide (lo ≤ a) && decide (y ≠ Memory.unlisted) && Memory.wfFrom (a + 1) t

/-- The canonical form of a buffer. -/
def Memory.wf (m : Memory) : Bool := Memory.wfFrom 0 m

/-- Every listed address is below `c`: only `buckets[0 .. c - 1]` are state (10_state.md R15). -/
def Memory.below (c : Nat) (m : Memory) : Bool := m.all fun cell => decide (cell.1 < c)

/-- Stream bit `s`: bit `7 - s mod 8` of byte `s div 8` (00_scope.md R5). -/
def Memory.streamBit (m : Memory) (s : Nat) : Bool := (m.read (s / 8)).getLsbD (7 - s % 8)

end Sys2Proof.Machine
end

