-- ==== Sys2Proof/Machine/Ops.lean ====
section
/-! DEFINITION. The shared operations: a bank by its number, the response, raising an error and what follows it, reset,
the bucket addressing, the primitives `CountRaw` and `PutField`, the increment, and making an instance. Outside the
preconditions of the spec the operations are total all the same (DESIGN CHOICE, log 11). -/

namespace Sys2Proof.Machine

/-! ### Banks -/

/-- `B[i]` (00_scope.md R7). -/
def State.bank (s : State) : BankId → Bank
  | .b0 => s.b0
  | .b1 => s.b1
  | .b2 => s.b2
  | .b3 => s.b3

/-- `B[i] <- b` (00_scope.md R7). -/
def State.setBank (s : State) (i : BankId) (b : Bank) : State :=
  match i with
  | .b0 => { s with b0 := b }
  | .b1 => { s with b1 := b }
  | .b2 => { s with b2 := b }
  | .b3 => { s with b3 := b }

/-- `B[i].valid` (10_state.md R11). -/
def Bank.valid : Bank → BitVec 1
  | .empty => 0#1
  | .occupied _ => 1#1

/-! ### Responses and errors -/

/-- `respond(status, data)`: ends the command (00_scope.md R7); the port holds the response until it is taken
(30_encoding.md R51). -/
def respond (st : Status) (data : Word) (s : State) : State := { s with port := .responding ⟨st, data⟩ }

/-- `raise ERR_X`, the block's whole trap entry: `respond(ERR_X, 0)` with no write to any bank; nothing is saved, no
mode changes, no vector is taken (60_exceptions.md R140, 00_scope.md R7). -/
def raise (e : Status) (s : State) : State := respond e 0#32 s

/-- Taking the response, after which the block is idle (30_encoding.md R51 (c)). For an error it is the block's whole
trap return: there is no handler state and nothing to restore (60_exceptions.md R141). -/
def takeResponse (s : State) : State := { s with port := .idle }

/-- The effect of `rst = 1` at a clock edge: every bank empty, no command in flight, no response pending
(70_reset_and_hazards.md R150). A command in flight and a pending response are abandoned (R152). -/
def resetBlock (s : State) : State :=
  { s with b0 := .empty, b1 := .empty, b2 := .empty, b3 := .empty, port := .idle }

/-! ### Bucket addressing -/

/-- `bucketsCount(n, k) = ((n + 1) * k + 7) div 8`, exact (00_scope.md R8, R6). -/
def bucketsCount (n k : Nat) : Nat := ((n + 1) * k + 7) / 8

/-- `MAXC(k) = 2^k - 1`, the ceiling of a counter (00_scope.md R6). -/
def maxCount (k : Nat) : Nat := 2 ^ k - 1

/-- `byteIndex(e, k)` (20_memory.md R32). -/
def byteIndex (e k : Nat) : Nat := e * k / 8

/-- `bitOffset(e, k)`, counted from the most significant bit of the byte (20_memory.md R32). -/
def bitOffset (e k : Nat) : Nat := e * k % 8

/-- Whether the field of element `e` spans two bytes (20_memory.md R33). -/
def straddles (e k : Nat) : Bool := decide (8 < bitOffset e k + k)

/-- `shift(e, k)`: the bits between the field's least significant bit and bit 0 of the byte or the window
(20_memory.md R33). -/
def fieldShift (e k : Nat) : Nat :=
  if straddles e k then 16 - bitOffset e k - k else 8 - bitOffset e k - k

/-! ### The two primitives -/

/-- The read of `CountRaw`, over a buffer and a counter width (20_memory.md R37). -/
def readField (m : Memory) (k e : Nat) : Nat :=
  let a := byteIndex e k
  let sh := fieldShift e k
  if straddles e k then ((m.readWindow a >>> sh) &&& BitVec.ofNat 16 (maxCount k)).toNat
  else ((m.read a >>> sh) &&& BitVec.ofNat 8 (maxCount k)).toNat

/-- The write of `PutField`, over a buffer and a counter width: the field is cleared with the complement of the mask,
then the value is ORed in (20_memory.md R38). -/
def writeField (m : Memory) (k e v : Nat) : Memory :=
  let a := byteIndex e k
  let sh := fieldShift e k
  if straddles e k then
    m.writeWindow a ((m.readWindow a &&& ~~~(BitVec.ofNat 16 (maxCount k) <<< sh)) ||| (BitVec.ofNat 16 v <<< sh))
  else
    m.write a ((m.read a &&& ~~~(BitVec.ofNat 8 (maxCount k) <<< sh)) ||| (BitVec.ofNat 8 v <<< sh))

/-- `CountRaw(i, e)` (20_memory.md R37). -/
def PackedMultiset.countRaw (p : PackedMultiset) (e : Nat) : Nat := readField p.buckets p.k.toNat e

/-- `PutField(i, e, v)` (20_memory.md R38). -/
def PackedMultiset.putField (p : PackedMultiset) (e v : Nat) : PackedMultiset :=
  { p with buckets := writeField p.buckets p.k.toNat e v }

/-- The body of INC without the occupied check and without the response: nothing for an element outside the domain,
nothing for a counter at its ceiling `2^k - 1`, in the one-byte and in the two-byte case alike (41_counter_access.md
R81, R84; 90_conflicts.md C1). -/
def PackedMultiset.increment (p : PackedMultiset) (e : Nat) : PackedMultiset :=
  if p.n.toNat < e then p
  else if p.countRaw e = maxCount p.k.toNat then p
  else p.putField e (p.countRaw e + 1)

/-- `AddOcc(i, e, m)`: `m` applications of the body of INC (41_counter_access.md R84). -/
def PackedMultiset.addOcc (p : PackedMultiset) (e : Nat) : Nat → PackedMultiset
  | 0 => p
  | m + 1 => (p.addOcc e m).increment e

/-! ### Making an instance -/

/-- `NewInst(rd, n', k')`, the body of CREATE without its checks (42_set_operators.md R100, 40_lifecycle.md R70). -/
def newInst (n : BitVec 16) (k : BitVec 4) : PackedMultiset where
  n := n
  k := k
  bc := BitVec.ofNat 17 (bucketsCount n.toNat k.toNat)
  buckets := Memory.zeroFilled

/-- `for i = 0 .. c - 1: b <- f i b`, the index upward (00_scope.md R7). -/
def forUp {β : Type} : Nat → (Nat → β → β) → β → β
  | 0, _, b => b
  | c + 1, f, b => f c (forUp c f b)

/-- The lesser of two values of a size field, as an unsigned number (00_scope.md R6). -/
def minField {w : Nat} (x y : BitVec w) : BitVec w := if x.toNat ≤ y.toNat then x else y

end Sys2Proof.Machine
end

