-- ==== Sys2Proof/Machine/Operands.lean ====
section
/-! DEFINITION. The operand forms of the commands (30_encoding.md R57): a bank that must be occupied, a bank that must
be empty, and the result of a filling command. Operands are bank numbers and immediates of the command word; every
immediate is unsigned (R56). -/

namespace Sys2Proof.Machine

/-- A bank that must be occupied, a source or a bank FREE, INC or WRB works on: `raise ERR_NOINST` when it is empty
(60_exceptions.md R132), else the command goes on with what the bank holds. -/
def needOccupied (i : BankId) (s : State) (go : PackedMultiset → State) : State :=
  match s.bank i with
  | .empty => raise .noinst s
  | .occupied p => go p

/-- A destination that must be empty: `raise ERR_BUSY` when it is occupied (60_exceptions.md R133), else the command
goes on. -/
def needEmpty (i : BankId) (s : State) (go : State) : State :=
  match s.bank i with
  | .empty => go
  | .occupied _ => raise .busy s

/-- The end of a filling command: the destination holds the new instance and the response is `(OK, 0)`
(40_lifecycle.md R74, 30_encoding.md R62). -/
def fill (rd : BankId) (p : PackedMultiset) (s : State) : State :=
  respond .ok 0#32 (s.setBank rd (.occupied p))

/-- A number as response data, `zext_32` (30_encoding.md R62). -/
def dataOf (v : Nat) : Word := BitVec.ofNat 32 v

end Sys2Proof.Machine
end

