-- ==== Sys2Proof/Machine/CounterAccess.lean ====
section
/-! DEFINITION. The meanings of COUNT and INC (41_counter_access.md R80, R81). -/

namespace Sys2Proof.Machine

/-- COUNT `ra, e` (41_counter_access.md R80). -/
def execCount (ra : BankId) (e : BitVec 16) (s : State) : Host.Outcome State Fault Refusal :=
  .next (needOccupied ra s fun a =>
    if a.n.toNat < e.toNat then raise .range s
    else respond .ok (dataOf (a.countRaw e.toNat)) s)

/-- INC `rd, e`: an element outside the domain and a saturated counter are ignored with status `OK`
(41_counter_access.md R81, 60_exceptions.md R137). -/
def execInc (rd : BankId) (e : BitVec 16) (s : State) : Host.Outcome State Fault Refusal :=
  .next (needOccupied rd s fun p =>
    respond .ok 0#32 (s.setBank rd (.occupied (p.increment e.toNat))))

end Sys2Proof.Machine
end

