-- ==== Sys2Proof/Machine/Lifecycle.lean ====
section
/-! DEFINITION. The meanings of CREATE, FREE, COPY and INFO (40_lifecycle.md R70 to R74). -/

namespace Sys2Proof.Machine

/-- The part of CREATE after `ERR_BUSY`: the width check, the capacity check, the new instance (40_lifecycle.md R70). -/
def createIn (rd : BankId) (k : BitVec 8) (n : BitVec 16) (s : State) : State :=
  if k.toNat < kMin ∨ kMax < k.toNat then raise .width s
  else if s.cfg.bmax < bucketsCount n.toNat k.toNat then raise .capacity s
  else fill rd (newInst n (k.setWidth 4)) s

/-- CREATE `rd, k, n` (40_lifecycle.md R70). -/
def execCreate (rd : BankId) (k : BitVec 8) (n : BitVec 16) (s : State) : Host.Outcome State Fault Refusal :=
  .next (needEmpty rd s (createIn rd k n s))

/-- FREE `rd` (40_lifecycle.md R71). -/
def execFree (rd : BankId) (s : State) : Host.Outcome State Fault Refusal :=
  .next (needOccupied rd s fun _ => respond .ok 0#32 (s.setBank rd .empty))

/-- COPY `rd, ra`: all four fields, padding bits included (40_lifecycle.md R72). -/
def execCopy (rd ra : BankId) (s : State) : Host.Outcome State Fault Refusal :=
  .next (needOccupied ra s fun a =>
    needEmpty rd s (fill rd { n := a.n, k := a.k, bc := a.bc, buckets := a.buckets } s))

/-- The size field a selector names, `zext_32` (40_lifecycle.md R73); `sel = 3` does not come here. -/
def infoField (p : PackedMultiset) : InfoSel → Word
  | .n => dataOf p.n.toNat
  | .k => dataOf p.k.toNat
  | .bc => dataOf p.bc.toNat
  | .valid => dataOf 1

/-- INFO `ra, sel`: `sel = 3` answers `valid` and never fails; the others need an occupied bank (40_lifecycle.md R73). -/
def execInfo (ra : BankId) (sel : InfoSel) (s : State) : Host.Outcome State Fault Refusal :=
  .next (if sel = .valid then respond .ok (dataOf (s.bank ra).valid.toNat) s
    else needOccupied ra s fun a => respond .ok (infoField a sel) s)

end Sys2Proof.Machine
end

