-- ==== Sys2Proof/Machine/RawBytes.lean ====
section
/-! DEFINITION. The meanings of RDB and WRB (43_raw_byte_access.md R120, R121). -/

namespace Sys2Proof.Machine

/-- RDB `ra, idx` (43_raw_byte_access.md R120). -/
def execRdb (ra : BankId) (idx : BitVec 16) (s : State) : Host.Outcome State Fault Refusal :=
  .next (needOccupied ra s fun a =>
    if a.bc.toNat ≤ idx.toNat then raise .range s
    else respond .ok (dataOf (a.buckets.read idx.toNat).toNat) s)

/-- WRB `rd, idx, byte` (43_raw_byte_access.md R121). -/
def execWrb (rd : BankId) (idx : BitVec 16) (byte : Byte) (s : State) : Host.Outcome State Fault Refusal :=
  .next (needOccupied rd s fun p =>
    if p.bc.toNat ≤ idx.toNat then raise .range s
    else respond .ok 0#32 (s.setBank rd (.occupied { p with buckets := p.buckets.write idx.toNat byte })))

end Sys2Proof.Machine
end

