-- ==== Sys2Proof/Machine/SetOperators.lean ====
section
/-! DEFINITION. The meanings of COMPL, ISECT, ISECTL and DIFF (42_set_operators.md R100 to R110). -/

namespace Sys2Proof.Machine

/-- The whole-buffer complement: every byte inverted, padding bits included (42_set_operators.md R101). -/
def complOf (a : PackedMultiset) : PackedMultiset :=
  { a with buckets := Memory.tabulate a.bc.toNat fun j => ~~~ a.buckets.read j }

/-- One element of the intended intersection: the lesser of the two counts, each bank read with its own `k`
(42_set_operators.md R103). -/
def isectElem (a b : PackedMultiset) (e : Nat) (r : PackedMultiset) : PackedMultiset :=
  r.putField e (min (a.countRaw e) (b.countRaw e))

/-- The intended intersection over the elements `0 .. min(a.n, b.n)` (42_set_operators.md R103). -/
def isectOf (a b : PackedMultiset) : PackedMultiset :=
  forUp ((minField a.n b.n).toNat + 1) (isectElem a b) (newInst (minField a.n b.n) (minField a.k b.k))

/-- One index of the literal intersection: one increment where both counts are non-zero (42_set_operators.md R105). -/
def isectlElem (a b : PackedMultiset) (i : Nat) (r : PackedMultiset) : PackedMultiset :=
  if a.countRaw i ≠ 0 ∧ b.countRaw i ≠ 0 then r.addOcc i 1 else r

/-- The literal intersection over the indices `0 .. min(a.bc, b.bc) - 1` (42_set_operators.md R105). -/
def isectlOf (a b : PackedMultiset) : PackedMultiset :=
  forUp (min a.bc.toNat b.bc.toNat) (isectlElem a b) (newInst (minField a.n b.n) (minField a.k b.k))

/-- The count of element `i` that the difference subtracts: 0 beyond `b`'s domain (42_set_operators.md R107). -/
def subtrahend (b : PackedMultiset) (i : Nat) : Nat := if i ≤ b.n.toNat then b.countRaw i else 0

/-- One element of the difference (42_set_operators.md R107). -/
def diffElem (a b : PackedMultiset) (i : Nat) (r : PackedMultiset) : PackedMultiset :=
  if subtrahend b i < a.countRaw i then r.addOcc i (a.countRaw i - subtrahend b i) else r

/-- The difference over the elements `0 .. a.n`, the bound inclusive (42_set_operators.md R107, 90_conflicts.md C4). -/
def diffOf (a b : PackedMultiset) : PackedMultiset :=
  forUp (a.n.toNat + 1) (diffElem a b) (newInst a.n a.k)

/-- COMPL `rd, ra` (42_set_operators.md R101). -/
def execCompl (rd ra : BankId) (s : State) : Host.Outcome State Fault Refusal :=
  .next (needOccupied ra s fun a => needEmpty rd s (fill rd (complOf a) s))

/-- ISECT `rd, ra, rb` (42_set_operators.md R103). -/
def execIsect (rd ra rb : BankId) (s : State) : Host.Outcome State Fault Refusal :=
  .next (needOccupied ra s fun a => needOccupied rb s fun b => needEmpty rd s (fill rd (isectOf a b) s))

/-- ISECTL `rd, ra, rb` (42_set_operators.md R105). -/
def execIsectl (rd ra rb : BankId) (s : State) : Host.Outcome State Fault Refusal :=
  .next (needOccupied ra s fun a => needOccupied rb s fun b => needEmpty rd s (fill rd (isectlOf a b) s))

/-- DIFF `rd, ra, rb` (42_set_operators.md R107). -/
def execDiff (rd ra rb : BankId) (s : State) : Host.Outcome State Fault Refusal :=
  .next (needOccupied ra s fun a => needOccupied rb s fun b => needEmpty rd s (fill rd (diffOf a b) s))

end Sys2Proof.Machine
end

