-- ==== Sys2Proof/Machine/Dispatch.lean ====
section
/-! DEFINITION. What each command does: one arm per constructor of `Instr`. -/

namespace Sys2Proof.Machine

def exec (i : Instr) (s : State) : Host.Outcome State Fault Refusal :=
  match i with
  | .create rd k n => Sys2Proof.Machine.execCreate rd k n s
  | .free rd => Sys2Proof.Machine.execFree rd s
  | .copy rd ra => Sys2Proof.Machine.execCopy rd ra s
  | .info ra sel => Sys2Proof.Machine.execInfo ra sel s
  | .count ra e => Sys2Proof.Machine.execCount ra e s
  | .inc rd e => Sys2Proof.Machine.execInc rd e s
  | .compl rd ra => Sys2Proof.Machine.execCompl rd ra s
  | .isect rd ra rb => Sys2Proof.Machine.execIsect rd ra rb s
  | .isectl rd ra rb => Sys2Proof.Machine.execIsectl rd ra rb s
  | .diff rd ra rb => Sys2Proof.Machine.execDiff rd ra rb s
  | .rdb ra idx => Sys2Proof.Machine.execRdb ra idx s
  | .wrb rd idx byte => Sys2Proof.Machine.execWrb rd idx byte s

end Sys2Proof.Machine
end

