-- ==== Sys2Proof/Machine/Sequencer.lean ====
section
/-! DEFINITION. The command sequencer and its ports (30_encoding.md R50, R51; 70_reset_and_hazards.md R150, R152): what
the block drives on its output ports, what it samples from the host, and what it does at one clock edge. The time a
command takes is left out: execution is one step, whatever the command (20_memory.md R43, log 4). -/

namespace Sys2Proof.Machine

/-! ### Output ports -/

/-- `cmd_ready` (30_encoding.md R50, R51). -/
def cmdReady (s : State) : Bool := decide (s.port = .idle)

/-- The response on the port, none while `rsp_valid = 0` (30_encoding.md R51 (g), log 5). -/
def pendingResponse (s : State) : Option Response :=
  match s.port with
  | .responding r => some r
  | .idle => none
  | .executing _ => none

/-- `rsp_valid` (30_encoding.md R50, R51). -/
def rspValid (s : State) : Bool := (pendingResponse s).isSome

/-- `rsp_status` while `rsp_valid = 1` (30_encoding.md R50, 60_exceptions.md R130). -/
def rspStatus (s : State) : Option (BitVec 4) := (pendingResponse s).map fun r => r.status.code

/-- `rsp_data` while `rsp_valid = 1` (30_encoding.md R50, R62). -/
def rspData (s : State) : Option Word := (pendingResponse s).map fun r => r.data

/-! ### Input ports -/

/-- A host that drives nothing: it may hold `cmd_valid` and `rsp_ready` low for any time (30_encoding.md R51 (f)). -/
def quietPins : HostPins := { rst := false, cmdValid := false, cmdWord := 0#32, rspReady := false }

/-- What the block samples at the next clock edge; nothing once the list is used up (log 3). -/
def sample (s : State) : HostPins := s.host.headD quietPins

/-- The clock edge is past. -/
def advance (s : State) : State := { s with host := s.host.tail }

/-! ### One clock edge -/

/-- The command is accepted (30_encoding.md R51 (b)). -/
def acceptWord (w : Word) (s : State) : State := { s with port := .executing w }

/-- The whole execution of the command in flight: a command of the table has its meaning, any other word is answered
`ERR_ILLEGAL` by the decoder, before anything else (30_encoding.md R55, 60_exceptions.md R131). -/
def runWord (w : Word) (s : State) : Host.Outcome State Fault Refusal :=
  match decode w with
  | .ok i => exec i s
  | .error _ => .next (raise .illegal s)

/-- One rising edge of `clk`. Reset wins (70_reset_and_hazards.md R150, R152; DEDUCED, log 8). Else an idle block accepts a presented
command, a block with a command in flight executes it, and a block with a response pending holds it until it is taken
(30_encoding.md R51). -/
def clockEdge (s : State) : Host.Outcome State Fault Refusal :=
  if (sample s).rst then .next (resetBlock (advance s))
  else match s.port with
    | .idle => if (sample s).cmdValid then .next (acceptWord (sample s).cmdWord (advance s)) else .next (advance s)
    | .executing w => runWord w (advance s)
    | .responding _ => if (sample s).rspReady then .next (takeResponse (advance s)) else .next (advance s)

/-- The word `w` accepted, and no reset at the next edge: what it takes for the very next step to execute `w`
(log 7). -/
def placeWord (w : Word) (s : State) : State := { s with port := .executing w, host := quietPins :: s.host }

end Sys2Proof.Machine
end

