-- ==== Sys2Proof/Machine/Step.lean ====
section
/-! DEFINITION. The step of the machine, one clock edge of the block, and the placing of a command word where the next
step executes it. -/

namespace Sys2Proof.Machine

/-- One step (30_encoding.md R51, 20_memory.md R43). -/
def step (s : State) : Host.Outcome State Fault Refusal := clockEdge s

/-- `s` with the word of an opcode-table row as the accepted command, so that the very next step executes it (log 7). -/
def State.withFetchWord (s : State) (nbits w : Nat) : State := placeWord (tableWord nbits w) s

end Sys2Proof.Machine
end

