-- ==== Sys2Proof/Machine/Assembler.lean ====
section
/-! DEFINITION. The assembler of 30_encoding.md R63 and R64: the text of a line, the range check of its operands, the
command and the word it stands for. -/

namespace Sys2Proof.Machine

/-! ### From a line to a word -/

/-- The command of a line whose operands are in range (30_encoding.md R64). -/
def buildInstr : Asm → Instr
  | .create d k n => .create (.ofBits (BitVec.ofNat 2 d)) (BitVec.ofNat 8 k) (BitVec.ofNat 16 n)
  | .free d => .free (.ofBits (BitVec.ofNat 2 d))
  | .copy d a => .copy (.ofBits (BitVec.ofNat 2 d)) (.ofBits (BitVec.ofNat 2 a))
  | .info a sel => .info (.ofBits (BitVec.ofNat 2 a)) (.ofBits (BitVec.ofNat 2 sel))
  | .count a e => .count (.ofBits (BitVec.ofNat 2 a)) (BitVec.ofNat 16 e)
  | .inc d e => .inc (.ofBits (BitVec.ofNat 2 d)) (BitVec.ofNat 16 e)
  | .compl d a => .compl (.ofBits (BitVec.ofNat 2 d)) (.ofBits (BitVec.ofNat 2 a))
  | .isect d a b => .isect (.ofBits (BitVec.ofNat 2 d)) (.ofBits (BitVec.ofNat 2 a)) (.ofBits (BitVec.ofNat 2 b))
  | .isectl d a b => .isectl (.ofBits (BitVec.ofNat 2 d)) (.ofBits (BitVec.ofNat 2 a)) (.ofBits (BitVec.ofNat 2 b))
  | .diff d a b => .diff (.ofBits (BitVec.ofNat 2 d)) (.ofBits (BitVec.ofNat 2 a)) (.ofBits (BitVec.ofNat 2 b))
  | .rdb a idx => .rdb (.ofBits (BitVec.ofNat 2 a)) (BitVec.ofNat 16 idx)
  | .wrb d idx byte => .wrb (.ofBits (BitVec.ofNat 2 d)) (BitVec.ofNat 16 idx) (BitVec.ofNat 8 byte)

/-- The command of a line; none when an operand is outside its range (30_encoding.md R64). -/
def asmInstr (a : Asm) : Option Instr := if a.wf then some (buildInstr a) else none

/-- `op << 28 | D << 26 | A << 24 | f8 << 16 | f16` (30_encoding.md R64). -/
def wordNumber (op d a f8 f16 : Nat) : Nat := op <<< 28 ||| d <<< 26 ||| a <<< 24 ||| f8 <<< 16 ||| f16

/-- The number of the word of a line (30_encoding.md R64). -/
def asmNumber : Asm → Nat
  | .create d k n => wordNumber 0x1 d 0 k n
  | .free d => wordNumber 0x2 d 0 0 0
  | .copy d a => wordNumber 0x3 d a 0 0
  | .info a sel => wordNumber 0x4 0 a sel 0
  | .count a e => wordNumber 0x5 0 a 0 e
  | .inc d e => wordNumber 0x6 d 0 0 e
  | .compl d a => wordNumber 0x7 d a 0 0
  | .isect d a b => wordNumber 0x8 d a b 0
  | .isectl d a b => wordNumber 0x9 d a b 0
  | .diff d a b => wordNumber 0xA d a b 0
  | .rdb a idx => wordNumber 0xB 0 a 0 idx
  | .wrb d idx byte => wordNumber 0xC d 0 byte idx

/-- The word of a line; none when an operand is outside its range (30_encoding.md R64). -/
def assemble (a : Asm) : Option Word := if a.wf then some (BitVec.ofNat 32 (asmNumber a)) else none

/-! ### The text of a line. What separates words and which digits a hexadecimal number has are not in R63: log 9. -/

/-- A space or a tab. -/
def isBlank (c : Char) : Bool := c == ' ' || c == '\t'

/-- The text without the blanks around it. -/
def trimBlanks (l : List Char) : List Char := ((l.dropWhile isBlank).reverse.dropWhile isBlank).reverse

/-- The parts of a text between separators. -/
def splitAtChar (sep : Char) : List Char → List (List Char)
  | [] => [[]]
  | c :: t =>
    match c == sep, splitAtChar sep t with
    | true, r => [] :: r
    | false, h :: r => (c :: h) :: r
    | false, [] => [[c]]

/-- The value of a digit in a base, none if it is no digit of that base. -/
def digitValue (base : Nat) (c : Char) : Option Nat :=
  let v := if '0' ≤ c ∧ c ≤ '9' then c.toNat - '0'.toNat
    else if 'a' ≤ c ∧ c ≤ 'f' then c.toNat - 'a'.toNat + 10
    else if 'A' ≤ c ∧ c ≤ 'F' then c.toNat - 'A'.toNat + 10
    else base
  if v < base then some v else none

/-- The value of a run of digits read so far, the most significant first. -/
def digitsValue (base acc : Nat) : List Char → Option Nat
  | [] => some acc
  | c :: t =>
    match digitValue base c with
    | some d => digitsValue base (acc * base + d) t
    | none => none

/-- A number: decimal, or hexadecimal with the prefix `0x` (30_encoding.md R63). -/
def numberText (l : List Char) : Option Nat :=
  match l with
  | [] => none
  | ['0', 'x'] => none
  | '0' :: 'x' :: t => digitsValue 16 0 t
  | c :: t => digitsValue 10 0 (c :: t)

/-- A bank: `b` and one digit; the range check refuses a digit above 3 (30_encoding.md R63). -/
def bankText (l : List Char) : Option Nat :=
  match l with
  | ['b', c] => digitValue 10 c
  | _ => none

/-- An INFO selector: a number, or one of the names `N`, `K`, `BC`, `V` (30_encoding.md R63). -/
def selText (l : List Char) : Option Nat :=
  match l with
  | ['N'] => some 0
  | ['K'] => some 1
  | ['B', 'C'] => some 2
  | ['V'] => some 3
  | _ => numberText l

/-- One operand read by `p`. -/
def oneOperand (p : List Char → Option Nat) (mk : Nat → Asm) (ops : List (List Char)) : Option Asm :=
  match ops with
  | [x] => (p x).map mk
  | _ => none

/-- Two operands read by `p` and `q`. -/
def twoOperands (p q : List Char → Option Nat) (mk : Nat → Nat → Asm) (ops : List (List Char)) : Option Asm :=
  match ops with
  | [x, y] => (p x).bind fun u => (q y).map (mk u)
  | _ => none

/-- Three operands read by `p`, `q` and `r`. -/
def threeOperands (p q r : List Char → Option Nat) (mk : Nat → Nat → Nat → Asm) (ops : List (List Char)) : Option Asm :=
  match ops with
  | [x, y, z] => (p x).bind fun u => (q y).bind fun v => (r z).map (mk u v)
  | _ => none

/-- The line of a mnemonic in capitals with its operands (30_encoding.md R63). -/
def commandText (mn : List Char) (ops : List (List Char)) : Option Asm :=
  match mn with
  | ['C', 'R', 'E', 'A', 'T', 'E'] => threeOperands bankText numberText numberText .create ops
  | ['F', 'R', 'E', 'E'] => oneOperand bankText .free ops
  | ['C', 'O', 'P', 'Y'] => twoOperands bankText bankText .copy ops
  | ['I', 'N', 'F', 'O'] => twoOperands bankText selText .info ops
  | ['C', 'O', 'U', 'N', 'T'] => twoOperands bankText numberText .count ops
  | ['I', 'N', 'C'] => twoOperands bankText numberText .inc ops
  | ['C', 'O', 'M', 'P', 'L'] => twoOperands bankText bankText .compl ops
  | ['I', 'S', 'E', 'C', 'T'] => threeOperands bankText bankText bankText .isect ops
  | ['I', 'S', 'E', 'C', 'T', 'L'] => threeOperands bankText bankText bankText .isectl ops
  | ['D', 'I', 'F', 'F'] => threeOperands bankText bankText bankText .diff ops
  | ['R', 'D', 'B'] => twoOperands bankText numberText .rdb ops
  | ['W', 'R', 'B'] => threeOperands bankText numberText numberText .wrb ops
  | _ => none

/-- A line of text: a `;` starts a comment, then the mnemonic, then the operands separated by commas (30_encoding.md
R63). `some none` for a line without a command, `none` for a line that is not of this form. -/
def parseLine (line : List Char) : Option (Option Asm) :=
  let text := trimBlanks (line.takeWhile fun c => c != ';')
  if text.isEmpty then some none
  else (commandText (text.takeWhile fun c => !isBlank c)
    ((splitAtChar ',' (text.dropWhile fun c => !isBlank c)).map trimBlanks)).map some

/-- The word of a line of text; none for a line without a command and for a line the assembler refuses. -/
def assembleText (line : List Char) : Option Word := (parseLine line).bind fun a => a.bind assemble

end Sys2Proof.Machine
end

