-- ==== Sys2Proof/Machine/HostProcedures.lean ====
section
/-! DEFINITION. The two pseudo-instructions DUMP and LOAD (30_encoding.md R65, R66): procedures of the host, each a
sequence of commands whose length depends on data the host reads on the way (log 10). -/

namespace Sys2Proof.Machine

/-- The host issues a command and takes its response before it does anything else (30_encoding.md R51,
70_reset_and_hazards.md R154). -/
def issue (i : Instr) (s : State) : Option (Response × State) :=
  match exec i s with
  | .next t =>
    match t.port with
    | .responding r => some (r, takeResponse t)
    | .idle => none
    | .executing _ => none
  | .fault _ => none
  | .refused _ => none

/-- The sequence of values of the document's binary layout: `n`, `k`, `bucketsCount`, the bytes (30_encoding.md R65).
How a host packs the numbers into a stream is outside the block (00_scope.md R3). -/
structure Image where
  n : Nat
  k : Nat
  bc : Nat
  bytes : List Byte
  deriving DecidableEq, Repr

/-- The data of a response whose status is `OK`. -/
def okData (r : Response) : Option Nat := if r.status = .ok then some r.data.toNat else none

/-- `RDB bA, idx` for `count` indices from `idx` upward (30_encoding.md R65). -/
def dumpBytes (a : BankId) : Nat → Nat → State → Option (List Byte × State)
  | 0, _, s => some ([], s)
  | count + 1, idx, s => do
    let (r, s) ← issue (.rdb a (BitVec.ofNat 16 idx)) s
    let y ← okData r
    let (ys, s) ← dumpBytes a count (idx + 1) s
    some (BitVec.ofNat 8 y :: ys, s)

/-- `DUMP bA` (30_encoding.md R65): the image and the state after it; none when the bank is empty. -/
def dump (a : BankId) (s : State) : Option (Image × State) := do
  let (r, s) ← issue (.info a .n) s
  let n ← okData r
  let (r, s) ← issue (.info a .k) s
  let k ← okData r
  let (r, s) ← issue (.info a .bc) s
  let bc ← okData r
  let (bytes, s) ← dumpBytes a bc 0 s
  some ({ n := n, k := k, bc := bc, bytes := bytes }, s)

/-- How a LOAD ends. -/
inductive LoadOutcome where
  /-- The bank holds the image's instance. -/
  | loaded
  /-- A command of the LOAD answered an error, which ends the LOAD (30_encoding.md R66). -/
  | failed (st : Status)
  /-- `CorruptData`, an outcome of the host and not a status of the block (30_encoding.md R66, 60_exceptions.md R130). -/
  | corruptData
  /-- A number of the image is outside the operand range of CREATE, so the assembler refuses it (30_encoding.md R64). -/
  | operandRange
  deriving DecidableEq, Repr

/-- `WRB bD, idx, byte[idx]` for every byte, the index upward (30_encoding.md R66). -/
def loadBytes (d : BankId) : Nat → List Byte → State → Option (LoadOutcome × State)
  | _, [], s => some (.loaded, s)
  | idx, y :: ys, s => do
    let (r, s) ← issue (.wrb d (BitVec.ofNat 16 idx) y) s
    if r.status = .ok then loadBytes d (idx + 1) ys s else some (.failed r.status, s)

/-- The part of LOAD after the bank is known to be empty: CREATE, the check of `bucketsCount`, the bytes
(30_encoding.md R66). -/
def loadInto (d : BankId) (im : Image) (s : State) : Option (LoadOutcome × State) := do
  let (r, s) ← issue (.create d (BitVec.ofNat 8 im.k) (BitVec.ofNat 16 im.n)) s
  if r.status = .ok then
    let (q, s) ← issue (.info d .bc) s
    if q.data.toNat = im.bc then loadBytes d 0 im.bytes s
    else
      let (_, s) ← issue (.free d) s
      some (.corruptData, s)
  else some (.failed r.status, s)

/-- `LOAD bD` (30_encoding.md R66): an occupied bank is released first. An image whose numbers are no operands, or
whose byte list is not as long as its `bucketsCount` says, is refused before any command (log 10). -/
def load (d : BankId) (im : Image) (s : State) : Option (LoadOutcome × State) :=
  if 256 ≤ im.k ∨ 65536 ≤ im.n then some (.operandRange, s)
  else if im.bytes.length ≠ im.bc then some (.corruptData, s)
  else do
    let (v, s) ← issue (.info d .valid) s
    if v.data = 1#32 then
      let (_, s) ← issue (.free d) s
      loadInto d im s
    else loadInto d im s

end Sys2Proof.Machine
end

