-- ==== Sys2Proof/Machine/Invariant.lean ====
section
/-! DEFINITION. The invariants of an occupied bank (10_state.md R16), of the memory's canonical form, and of a pending
response (30_encoding.md R62), which every step keeps. -/

namespace Sys2Proof.Machine

/-- The size fields of an occupied bank agree, clauses (a) to (d) of 10_state.md R16 (clause (e) follows), and its
buffer is in canonical form with no cell at or above `bc`. -/
def PackedMultiset.wf (c : Config) (p : PackedMultiset) : Bool :=
  decide (kMin ≤ p.k.toNat) && decide (p.k.toNat ≤ kMax)
    && decide (p.bc.toNat = bucketsCount p.n.toNat p.k.toNat) && decide (p.bc.toNat ≤ c.bmax)
    && p.buckets.wf && p.buckets.below p.bc.toNat

/-- A bank is empty, or what it holds is well formed. -/
def Bank.wf (c : Config) : Bank → Bool
  | .empty => true
  | .occupied p => p.wf c

/-- A pending error response carries data 0 (30_encoding.md R62). -/
def Port.wf : Port → Bool
  | .idle => true
  | .executing _ => true
  | .responding r => decide (r.status = .ok) || decide (r.data = 0#32)

/-- The invariant of the machine. -/
def State.wf (s : State) : Bool :=
  s.cfg.wf && s.b0.wf s.cfg && s.b1.wf s.cfg && s.b2.wf s.cfg && s.b3.wf s.cfg && s.port.wf

end Sys2Proof.Machine
end

