-- ==== Sys2Proof/Safety.lean ====
section
/-! DEFINITION. The terms in which claims speak of a run: which bank a command writes and which it names, the error
table of 60_exceptions.md R138 and R139 written down beside the meanings, a padding bit, an
illegal word, and a sequence of commands. -/

namespace Sys2Proof.Machine

/-- Nothing but the banks and the port may differ: `BMAX` and the host are as they were. -/
def sameEnvironment (s t : State) : Prop := t.cfg = s.cfg ∧ t.host = s.host

/-- Every bank but `rd` is as it was (10_state.md R20). -/
def otherBanksKept (rd : BankId) (s t : State) : Prop := ∀ j, j ≠ rd → t.bank j = s.bank j

/-- No bank has changed. -/
def banksKept (s t : State) : Prop := ∀ j, t.bank j = s.bank j

/-- The one bank a command may write (30_encoding.md R57, 10_state.md R20). -/
def destination : Instr → Option BankId
  | .create rd _ _ => some rd
  | .free rd => some rd
  | .copy rd _ => some rd
  | .info _ _ => none
  | .count _ _ => none
  | .inc rd _ => some rd
  | .compl rd _ => some rd
  | .isect rd _ _ => some rd
  | .isectl rd _ _ => some rd
  | .diff rd _ _ => some rd
  | .rdb _ _ => none
  | .wrb rd _ _ => some rd

/-- The banks a command names (30_encoding.md R57). -/
def namedBanks : Instr → List BankId
  | .create rd _ _ => [rd]
  | .free rd => [rd]
  | .copy rd ra => [rd, ra]
  | .info ra _ => [ra]
  | .count ra _ => [ra]
  | .inc rd _ => [rd]
  | .compl rd ra => [rd, ra]
  | .isect rd ra rb => [rd, ra, rb]
  | .isectl rd ra rb => [rd, ra, rb]
  | .diff rd ra rb => [rd, ra, rb]
  | .rdb ra _ => [ra]
  | .wrb rd _ _ => [rd]

/-- `B[i].valid = 0`. -/
def isEmpty (s : State) (i : BankId) : Bool := decide ((s.bank i).valid = 0#1)

/-- `B[i].valid = 1`. -/
def isOccupied (s : State) (i : BankId) : Bool := decide ((s.bank i).valid = 1#1)

/-- Bank `i` is occupied and element `e` is outside its domain. -/
def outOfDomain (s : State) (i : BankId) (e : Nat) : Bool :=
  match s.bank i with
  | .empty => false
  | .occupied p => decide (p.n.toNat < e)

/-- Bank `i` is occupied and it has no byte `idx`. -/
def outOfBuffer (s : State) (i : BankId) (idx : Nat) : Bool :=
  match s.bank i with
  | .empty => false
  | .occupied p => decide (p.bc.toNat ≤ idx)

/-- The row of a command in the table of 60_exceptions.md R138: each error it can answer, with the condition under which
the error's cell says it is raised. `ERR_ILLEGAL` is the decoder's and stands in no row. -/
def errorRow (s : State) : Instr → List (Status × Bool)
  | .create rd k n => [(.busy, isOccupied s rd), (.width, decide (¬(1 ≤ k.toNat ∧ k.toNat ≤ 8))),
      (.capacity, decide (s.cfg.bmax < bucketsCount n.toNat k.toNat))]
  | .free rd => [(.noinst, isEmpty s rd)]
  | .copy rd ra => [(.noinst, isEmpty s ra), (.busy, isOccupied s rd)]
  | .info ra sel => [(.noinst, isEmpty s ra && decide (sel ≠ .valid))]
  | .count ra e => [(.noinst, isEmpty s ra), (.range, outOfDomain s ra e.toNat)]
  | .inc rd _ => [(.noinst, isEmpty s rd)]
  | .compl rd ra => [(.noinst, isEmpty s ra), (.busy, isOccupied s rd)]
  | .isect rd ra rb => [(.noinst, isEmpty s ra || isEmpty s rb), (.busy, isOccupied s rd)]
  | .isectl rd ra rb => [(.noinst, isEmpty s ra || isEmpty s rb), (.busy, isOccupied s rd)]
  | .diff rd ra rb => [(.noinst, isEmpty s ra || isEmpty s rb), (.busy, isOccupied s rd)]
  | .rdb ra idx => [(.noinst, isEmpty s ra), (.range, outOfBuffer s ra idx.toNat)]
  | .wrb rd idx _ => [(.noinst, isEmpty s rd), (.range, outOfBuffer s rd idx.toNat)]

/-- Whether the row names the error with a condition that holds. -/
def raises (row : List (Status × Bool)) (e : Status) : Bool := row.contains (e, true)

/-- The first error in the order of 60_exceptions.md R139 whose condition holds, `OK` when none does. -/
def firstError (row : List (Status × Bool)) : Status := (Status.priority.find? (raises row)).getD .ok

/-- Stream bit `s` is padding: at or after `(n + 1) * k`, before the end of the buffer (10_state.md R18). -/
def isPadding (p : PackedMultiset) (s : Nat) : Prop := (p.n.toNat + 1) * p.k.toNat ≤ s ∧ s < p.bc.toNat * 8

/-- `op` is 0x0, 0xD, 0xE or 0xF (30_encoding.md R58). -/
def reservedOp (w : Word) : Prop := opField w = 0x0#4 ∨ opField w = 0xD#4 ∨ opField w = 0xE#4 ∨ opField w = 0xF#4

/-- An illegal word: a reserved opcode, or a defined opcode whose row does not accept the word (30_encoding.md R55, R58). -/
def illegalWord (w : Word) : Prop :=
  reservedOp w ∨ ∃ r ∈ encodingTable, opField r.bits = opField w ∧ r.accepts w = false

/-- Commands issued one after another, each response taken before the next is issued (30_encoding.md R51): the
responses in order, and the state after the last is taken. -/
def issueAll : List Instr → State → Option (List Response × State)
  | [], s => some ([], s)
  | c :: cs, s =>
    match issue c s with
    | none => none
    | some (r, t) =>
      match issueAll cs t with
      | none => none
      | some (rs, u) => some (r :: rs, u)

/-- One command issued `m` times (41_counter_access.md R82). -/
def issueRepeated (c : Instr) (m : Nat) (s : State) : Option State :=
  (issueAll (List.replicate m c) s).map fun x => x.2

end Sys2Proof.Machine
end

