-- ==== Sys2Proof/Certificates/Slice0/Obligations.lean ====
section
/-! DEFINITION. The statements about the model, for the provers. Each docstring names the rule of spec/ a statement
formalises, or says that it rests on a choice of the model and names the log entry. -/

open Sys2Proof Sys2Proof.Machine

/-! ### The command word -/

/-- 30_encoding.md R52, R54, R55: decoding the word of a command gives the command, with every operand at every value. -/
def Obligations.DecodeOfEncodeIsTheCommand : Prop :=
  ∀ i : Instr, i.wf = true → decode (encode i) = .ok i

/-- 30_encoding.md R52, R54, R55: a word that decodes is the word of its command, so no bit of it is dropped. -/
def Obligations.EncodeOfDecodeIsTheWord : Prop :=
  ∀ (w : Word) (i : Instr), decode w = .ok i → encode i = w

/-- 30_encoding.md R54: a word `w` is that command exactly when `w & mask = match`. -/
def Obligations.RowAcceptsExactlyItsCommand : Prop :=
  ∀ (w : Word) (r : EncRow), r ∈ encodingTable → (r.accepts w = true ↔ ∃ i, decode w = .ok i ∧ i.row = r)

/-- 30_encoding.md R55: no two rows match the same word. -/
def Obligations.NoTwoRowsAcceptOneWord : Prop :=
  ∀ (w : Word) (r r' : EncRow), r ∈ encodingTable → r' ∈ encodingTable → r.accepts w = true → r'.accepts w = true → r = r'

/-- 30_encoding.md R54 and R64: words written out in the spec decode to the commands they stand for, and two words that are
no command are refused. Which of the decoder's two reasons names each of these two is the model's choice (log 15): the
spec answers both alike. -/
def Obligations.WrittenWordsDecode : Prop :=
  decode 0x10030014#32 = .ok (.create .b0 3#8 20#16) ∧ decode 0x64000005#32 = .ok (.inc .b1 5#16) ∧
  decode 0x88010000#32 = .ok (.isect .b2 .b0 .b1) ∧ decode 0xC4C00002#32 = .ok (.wrb .b1 2#16 0xC0#8) ∧
  decode 0x43020000#32 = .ok (.info .b3 .bc) ∧ decode 0x28000000#32 = .ok (.free .b2) ∧
  decode 0x11030014#32 = .error .mustBeZeroBitSet ∧ decode 0xD0000000#32 = .error .reservedOpcode

/-- 30_encoding.md R58: a reserved opcode and a must-be-zero bit that is 1 make a word illegal; the word is answered
`ERR_ILLEGAL` with data 0 and no change of state; the all-zero and the all-ones word are illegal; every other word is
a command. -/
def Obligations.IllegalWordsAreAnswered : Prop :=
  (∀ (s : State) (w : Word), illegalWord w → runWord w s = .next { s with port := .responding ⟨.illegal, 0#32⟩ }) ∧
  reservedOp 0x00000000#32 ∧ reservedOp 0xFFFFFFFF#32 ∧
  (∀ w : Word, illegalWord w ∨ ∃ i, decode w = .ok i)

/-- 30_encoding.md R64: the assembler's word of a line whose operands are in range is the encoding of the line's command,
and a line with an operand outside its range is refused. -/
def Obligations.AssembledWordIsTheEncoding : Prop :=
  ∀ a : Asm, (a.wf = true → ∃ i, asmInstr a = some i ∧ assemble a = some (encode i)) ∧
    (a.wf = false → asmInstr a = none ∧ assemble a = none)

/-- 30_encoding.md R63, R64: the assembler line of a command stands for that command. -/
def Obligations.AssemblerLineGivesBackTheCommand : Prop := ∀ i : Instr, asmInstr i.toAsm = some i

/-! ### The port and the step -/

/-- 30_encoding.md R51, R55, 20_memory.md R43: with a command in flight and no reset, a step is the meaning of the decoded
command, at the state in which the host's samples have moved on by one edge, or the answer `ERR_ILLEGAL` where the word
is no command. That execution takes exactly one step is the model's choice (log 4). -/
def Obligations.StepRunsTheDecodedCommand : Prop :=
  ∀ (s : State) (w : Word), s.port = .executing w → (sample s).rst = false →
    (∀ i, decode w = .ok i → step s = exec i { s with host := s.host.tail }) ∧
    (∀ x, decode w = .error x → step s = .next (raise .illegal { s with host := s.host.tail }))

/-- The model's choice (log 7): a word placed with `withFetchWord` is what the very next step executes, and nothing else
of the state is touched for it. -/
def Obligations.PlacedWordRunsNext : Prop :=
  ∀ (s : State) (nbits w : Nat) (i : Instr), decodeTableWord nbits w = some i →
    step (s.withFetchWord nbits w) = exec i { s with port := .executing (tableWord nbits w) }

/-- 30_encoding.md R50, R51 (a), (b), (c), (f), (g): without reset, an idle block accepts a presented command and else
waits, and a pending response is held unchanged until it is taken, after which the block is idle; the command channel
is ready exactly when idle, the response channel valid exactly with a response pending. That an edge without an event
is a step is the model's choice (log 4). -/
def Obligations.HandshakeFollowsTheProtocol : Prop :=
  ∀ s : State, (sample s).rst = false →
    (cmdReady s = true ↔ s.port = .idle) ∧
    (rspValid s = true ↔ ∃ r, s.port = .responding r) ∧
    (s.port = .idle → (sample s).cmdValid = true →
      step s = .next { s with host := s.host.tail, port := .executing (sample s).cmdWord }) ∧
    (s.port = .idle → (sample s).cmdValid = false → step s = .next { s with host := s.host.tail }) ∧
    (∀ r, s.port = .responding r → (sample s).rspReady = false → step s = .next { s with host := s.host.tail }) ∧
    (∀ r, s.port = .responding r → (sample s).rspReady = true →
      step s = .next { s with host := s.host.tail, port := .idle })

/-- 60_exceptions.md R130, 30_encoding.md R50, R62: a pending response stands on the ports as its status code and its data;
the seven statuses have the codes 0 to 6, and no other value is ever driven. -/
def Obligations.StatusCodeIsOnThePort : Prop :=
  (∀ (s : State) (r : Response), s.port = .responding r →
    rspStatus s = some r.status.code ∧ rspData s = some r.data) ∧
  (∀ (s : State) (v : BitVec 4), rspStatus s = some v → v.toNat ≤ 6) ∧
  Status.ok.code = 0#4 ∧ Status.illegal.code = 1#4 ∧ Status.noinst.code = 2#4 ∧ Status.busy.code = 3#4 ∧
    Status.width.code = 4#4 ∧ Status.capacity.code = 5#4 ∧ Status.range.code = 6#4

/-- 70_reset_and_hazards.md R160, 30_encoding.md R51 (d): every step answers a next state, and every accepted command, of
the table or illegal, is answered with exactly one response. That it is answered at the next step is the model's
choice (log 4). -/
def Obligations.EveryCommandIsAnswered : Prop :=
  (∀ s : State, ∃ t, step s = .next t) ∧
  (∀ (s : State) (w : Word), s.port = .executing w → (sample s).rst = false →
    ∃ t r, step s = .next t ∧ t.port = .responding r ∧ t.cfg = s.cfg ∧ t.host = s.host.tail) ∧
  (∀ (s t : State) (r : Response), step s = .next t → t.port = .responding r →
    s.port = .responding r ∨ ∃ w, s.port = .executing w)

/-- 30_encoding.md R51, 20_memory.md R43: a command presented to an idle block, executed, and its response taken leaves
the banks as the meaning of the command leaves them, and the block idle. That this takes three steps is the model's
choice (log 4). -/
def Obligations.WholeTransaction : Prop :=
  ∀ (s : State) (p q r : HostPins) (rest : List HostPins) (i : Instr), s.port = .idle → s.host = p :: q :: r :: rest →
    p.rst = false → q.rst = false → r.rst = false → p.cmdValid = true → r.rspReady = true → decode p.cmdWord = .ok i →
    ∃ t a, exec i s = .next t ∧ t.port = .responding a ∧
      Host.Core.run core 3 s = .next { t with port := .idle, host := rest }

/-- 70_reset_and_hazards.md R150, R152: whatever the block is doing, after any number of edges with `rst = 1`, at least
one, every bank is empty, no command is in flight, `cmd_ready = 1`, `rsp_valid = 0`, whatever the host presents at those
edges. What the port delivers at such an edge is not spoken of (log 8). -/
def Obligations.ResetEmptiesTheBlock : Prop :=
  ∀ (m : Nat) (s : State), m < s.host.length → (∀ p ∈ s.host.take (m + 1), p.rst = true) →
    ∃ t : State, Host.Core.run core (m + 1) s = .next t ∧ (∀ i, t.bank i = .empty) ∧ t.port = .idle ∧
      cmdReady t = true ∧ rspValid t = false ∧ t.cfg = s.cfg ∧ t.host = s.host.drop (m + 1)

/-- 10_state.md R26, 70_reset_and_hazards.md R151: after reset every `valid` is 0, no command is in flight and no response
is pending. The other fields of an empty bank do not exist in the model (log 1). -/
def Obligations.ResetStateHasNothing : Prop :=
  (∀ i, (State.reset.bank i).valid = 0#1) ∧ (∀ w, State.reset.port ≠ .executing w) ∧
    pendingResponse State.reset = none ∧ cmdReady State.reset = true

/-! ### Invariants -/

/-- The machine after reset meets the invariant. -/
def Obligations.ResetStateMeetsTheInvariant : Prop := State.reset.wf = true

/-- 10_state.md R16, 40_lifecycle.md R74, 30_encoding.md R62: every step keeps the invariant: the size fields of every
occupied bank agree, its buffer is in canonical form (the model's choice, log 6) with nothing at or above `bc`, a pending
error has data 0. -/
def Obligations.StepKeepsTheInvariant : Prop :=
  ∀ s t : State, s.wf = true → step s = .next t → t.wf = true

/-- 10_state.md R16: in every occupied bank, after any number of steps from reset, for every `BMAX` and everything the
host may drive, clauses (a) to (e). -/
def Obligations.OccupiedBanksAgree : Prop :=
  ∀ (c : Config) (hs : List HostPins) (m : Nat) (t : State) (i : BankId) (p : PackedMultiset), c.wf = true →
    Host.Core.run core m { State.reset with cfg := c, host := hs } = .next t → t.bank i = .occupied p →
    (1 ≤ p.k.toNat ∧ p.k.toNat ≤ 8) ∧ p.n.toNat ≤ 65535 ∧ p.bc.toNat = bucketsCount p.n.toNat p.k.toNat ∧
      (1 ≤ p.bc.toNat ∧ p.bc.toNat ≤ c.bmax) ∧
      ((p.n.toNat + 1) * p.k.toNat ≤ p.bc.toNat * 8 ∧ p.bc.toNat * 8 - (p.n.toNat + 1) * p.k.toNat ≤ 7)

/-- 10_state.md R27: while a bank stays occupied its `n`, `k` and `bc` do not change; only `buckets` changes, and only by
INC and WRB. -/
def Obligations.SizesAreFixedWhileOccupied : Prop :=
  (∀ (s t : State) (i : BankId) (p q : PackedMultiset), step s = .next t → s.bank i = .occupied p → t.bank i = .occupied q →
    q.n = p.n ∧ q.k = p.k ∧ q.bc = p.bc) ∧
  (∀ (c : Instr) (s t : State) (i : BankId) (p q : PackedMultiset), exec c s = .next t → s.bank i = .occupied p →
    t.bank i = .occupied q → q ≠ p → (∃ e, c = .inc i e) ∨ ∃ idx y, c = .wrb i idx y)

/-- 10_state.md R20: no command writes a bank other than its one destination bank, and none touches the model's own fields
`BMAX` and the host (logs 2 and 3). -/
def Obligations.CommandWritesOnlyItsDestination : Prop :=
  ∀ (c : Instr) (s t : State), exec c s = .next t →
    (∀ j, destination c ≠ some j → t.bank j = s.bank j) ∧ sameEnvironment s t

/-- 42_set_operators.md R100, 40_lifecycle.md R72: a destination that is one of the sources always fails, with
`ERR_NOINST` or `ERR_BUSY`. -/
def Obligations.DestinationIsNeverASource : Prop :=
  ∀ (s : State) (i j : BankId) (c : Instr),
    c ∈ [.copy i i, .compl i i, .isect i i j, .isect i j i, .isectl i i j, .isectl i j i, .diff i i j, .diff i j i] →
    exec c s = .next (raise .noinst s) ∨ exec c s = .next (raise .busy s)

/-- 60_exceptions.md R140: a command, of the table or illegal, that raises an error writes no field of any bank, responds
with the error status and data 0, and leaves the block idle and ready once the response is taken. -/
def Obligations.ErrorsWriteNothing : Prop :=
  ∀ (w : Word) (s t : State) (r : Response), runWord w s = .next t → t.port = .responding r → r.status ≠ .ok →
    r.data = 0#32 ∧ t = { s with port := .responding ⟨r.status, 0#32⟩ } ∧ takeResponse t = { s with port := .idle } ∧
      cmdReady (takeResponse t) = true

/-- 60_exceptions.md R141: a sequence of failing commands of any length leaves the state unchanged. -/
def Obligations.FailedCommandsLeaveTheState : Prop :=
  ∀ (cs : List Instr) (s t : State) (rs : List Response), s.port = .idle → issueAll cs s = some (rs, t) →
    (∀ r ∈ rs, r.status ≠ .ok) → t = s

/-- 60_exceptions.md R138, R139: the status a command answers is the first error, in the order of R139, whose condition in
its row of R138 holds, and `OK` when none does. -/
def Obligations.StatusIsTheFirstErrorThatHolds : Prop :=
  ∀ (c : Instr) (s : State), ∃ t d, exec c s = .next t ∧ t.port = .responding ⟨firstError (errorRow s c), d⟩

/-- 20_memory.md R44, 10_state.md R20: what a command answers and what it leaves in the banks it names depend on those
banks and on `BMAX` alone. -/
def Obligations.OnlyNamedBanksMatter : Prop :=
  ∀ (c : Instr) (s s' t t' : State), s'.cfg = s.cfg → (∀ j ∈ namedBanks c, s'.bank j = s.bank j) →
    exec c s = .next t → exec c s' = .next t' →
    t'.port = t.port ∧ ∀ j ∈ namedBanks c, t'.bank j = t.bank j

/-! ### Errors -/

/-- 60_exceptions.md R132: `ERR_NOINST` when a bank that must hold an instance is empty. -/
def Obligations.EmptyBankIsRefused : Prop :=
  ∀ (s : State) (i rd j : BankId) (sel : InfoSel) (e : BitVec 16) (y : Byte), s.bank i = .empty →
    exec (.free i) s = .next (raise .noinst s) ∧ exec (.inc i e) s = .next (raise .noinst s) ∧
    exec (.wrb i e y) s = .next (raise .noinst s) ∧ exec (.count i e) s = .next (raise .noinst s) ∧
    exec (.rdb i e) s = .next (raise .noinst s) ∧ (sel ≠ .valid → exec (.info i sel) s = .next (raise .noinst s)) ∧
    exec (.copy rd i) s = .next (raise .noinst s) ∧ exec (.compl rd i) s = .next (raise .noinst s) ∧
    exec (.isect rd i j) s = .next (raise .noinst s) ∧ exec (.isect rd j i) s = .next (raise .noinst s) ∧
    exec (.isectl rd i j) s = .next (raise .noinst s) ∧ exec (.isectl rd j i) s = .next (raise .noinst s) ∧
    exec (.diff rd i j) s = .next (raise .noinst s) ∧ exec (.diff rd j i) s = .next (raise .noinst s)

/-- 60_exceptions.md R133: `ERR_BUSY` when the destination is occupied (and, for the commands with sources, the sources
are not empty, R139); the block never overwrites an instance. -/
def Obligations.OccupiedDestinationIsRefused : Prop :=
  ∀ (s : State) (rd ra rb : BankId) (k : BitVec 8) (n : BitVec 16) (p a b : PackedMultiset), s.bank rd = .occupied p →
    exec (.create rd k n) s = .next (raise .busy s) ∧
    (s.bank ra = .occupied a → exec (.copy rd ra) s = .next (raise .busy s) ∧
      exec (.compl rd ra) s = .next (raise .busy s)) ∧
    (s.bank ra = .occupied a → s.bank rb = .occupied b → exec (.isect rd ra rb) s = .next (raise .busy s) ∧
      exec (.isectl rd ra rb) s = .next (raise .busy s) ∧ exec (.diff rd ra rb) s = .next (raise .busy s)) ∧
    (∀ (c : Instr) (t : State),
      c ∈ [.create rd k n, .copy rd ra, .compl rd ra, .isect rd ra rb, .isectl rd ra rb, .diff rd ra rb] →
      exec c s = .next t → t.bank rd = .occupied p)

/-- 60_exceptions.md R134: `ERR_WIDTH` is raised by CREATE alone, when `k = 0` or `9 <= k <= 255` (the destination being
empty, R139). -/
def Obligations.WidthErrorIsOfCreateAlone : Prop :=
  (∀ (s : State) (rd : BankId) (k : BitVec 8) (n : BitVec 16), s.bank rd = .empty → (k.toNat = 0 ∨ 9 ≤ k.toNat) →
    exec (.create rd k n) s = .next (raise .width s)) ∧
  (∀ (c : Instr) (s t : State) (d : Word), exec c s = .next t → t.port = .responding ⟨.width, d⟩ →
    ∃ rd k n, c = .create rd k n ∧ (k.toNat = 0 ∨ 9 ≤ k.toNat))

/-- 60_exceptions.md R135: `ERR_CAPACITY` is raised by CREATE alone, when `bucketsCount(n, k) > BMAX`; the block answers
and goes on, the bank stays empty; with `BMAX = 65536` it cannot occur. -/
def Obligations.CapacityErrorIsOfCreateAlone : Prop :=
  (∀ (s : State) (rd : BankId) (k : BitVec 8) (n : BitVec 16), s.bank rd = .empty → 1 ≤ k.toNat → k.toNat ≤ 8 →
    s.cfg.bmax < bucketsCount n.toNat k.toNat → exec (.create rd k n) s = .next (raise .capacity s)) ∧
  (∀ (c : Instr) (s t : State) (d : Word), exec c s = .next t → t.port = .responding ⟨.capacity, d⟩ →
    s.cfg.bmax ≠ 65536 ∧ ∃ rd k n, c = .create rd k n ∧ s.cfg.bmax < bucketsCount n.toNat k.toNat ∧ t.bank rd = .empty)

/-- 60_exceptions.md R136: `ERR_RANGE`, with data 0, is raised by COUNT when `e > n` and by RDB and WRB when `idx >= bc`,
and by no other command. -/
def Obligations.RangeErrorIsOfThreeCommands : Prop :=
  (∀ (s : State) (i : BankId) (e : BitVec 16) (y : Byte) (p : PackedMultiset), s.bank i = .occupied p →
    (p.n.toNat < e.toNat → exec (.count i e) s = .next (raise .range s)) ∧
    (p.bc.toNat ≤ e.toNat → exec (.rdb i e) s = .next (raise .range s) ∧
      exec (.wrb i e y) s = .next (raise .range s))) ∧
  (∀ (c : Instr) (s t : State) (d : Word), exec c s = .next t → t.port = .responding ⟨.range, d⟩ →
    d = 0#32 ∧ ((∃ i e, c = .count i e ∧ outOfDomain s i e.toNat = true) ∨
      (∃ i idx, c = .rdb i idx ∧ outOfBuffer s i idx.toNat = true) ∨
      ∃ i idx y, c = .wrb i idx y ∧ outOfBuffer s i idx.toNat = true))

/-- 60_exceptions.md R137: INC with `e > n` and INC on a saturated counter give status `OK`, set no state, and are not told
apart in the response from an INC that incremented. -/
def Obligations.IncIsSilent : Prop :=
  ∀ (s : State) (rd : BankId) (e : BitVec 16) (p : PackedMultiset), s.bank rd = .occupied p →
    (p.n.toNat < e.toNat ∨ p.countRaw e.toNat = maxCount p.k.toNat →
      exec (.inc rd e) s = .next { s with port := .responding ⟨.ok, 0#32⟩ }) ∧
    ∃ t, exec (.inc rd e) s = .next t ∧ t.port = .responding ⟨.ok, 0#32⟩

/-! ### Lifecycle -/

/-- 40_lifecycle.md R70: CREATE on an empty bank with a legal width that fits makes a multiset of the given sizes whose
bytes, counts and padding bits are all 0, and nothing else changes. -/
def Obligations.CreateMakesAnEmptyMultiset : Prop :=
  ∀ (s : State) (rd : BankId) (k : BitVec 8) (n : BitVec 16), s.bank rd = .empty → 1 ≤ k.toNat → k.toNat ≤ 8 →
    ((n.toNat + 1) * k.toNat + 7) / 8 ≤ s.cfg.bmax →
    ∃ t p, exec (.create rd k n) s = .next t ∧ t.port = .responding ⟨.ok, 0#32⟩ ∧ t.bank rd = .occupied p ∧
      p.n = n ∧ p.k.toNat = k.toNat ∧ p.bc.toNat = ((n.toNat + 1) * k.toNat + 7) / 8 ∧
      (∀ j, p.buckets.read j = 0#8) ∧ (∀ e, e ≤ n.toNat → p.countRaw e = 0) ∧
      otherBanksKept rd s t ∧ sameEnvironment s t

/-- 40_lifecycle.md R71: FREE on an occupied bank empties it and changes nothing else; the same word again answers
`ERR_NOINST`. -/
def Obligations.FreeEmptiesTheBank : Prop :=
  ∀ (s : State) (rd : BankId) (p : PackedMultiset), s.bank rd = .occupied p →
    ∃ t, exec (.free rd) s = .next t ∧ t.port = .responding ⟨.ok, 0#32⟩ ∧ (t.bank rd).valid = 0#1 ∧
      otherBanksKept rd s t ∧ sameEnvironment s t ∧
      exec (.free rd) (takeResponse t) = .next (raise .noinst (takeResponse t))

/-- 40_lifecycle.md R72: COPY of an occupied bank into an empty one makes a byte-for-byte duplicate, padding included, and
changes nothing else. -/
def Obligations.CopyDuplicatesTheBank : Prop :=
  ∀ (s : State) (rd ra : BankId) (a : PackedMultiset), s.bank ra = .occupied a → s.bank rd = .empty →
    ∃ t q, exec (.copy rd ra) s = .next t ∧ t.port = .responding ⟨.ok, 0#32⟩ ∧ t.bank rd = .occupied q ∧
      q.n = a.n ∧ q.k = a.k ∧ q.bc = a.bc ∧ (∀ j, q.buckets.read j = a.buckets.read j) ∧
      t.bank ra = .occupied a ∧ otherBanksKept rd s t ∧ sameEnvironment s t

/-- 40_lifecycle.md R73: INFO answers the selected field, `sel = 3` answers `valid` for every bank, and no state changes
but the response. -/
def Obligations.InfoReturnsTheField : Prop :=
  ∀ (s : State) (ra : BankId),
    exec (.info ra .valid) s = .next (respond .ok (BitVec.ofNat 32 (s.bank ra).valid.toNat) s) ∧
    ∀ p, s.bank ra = .occupied p →
      exec (.info ra .n) s = .next (respond .ok (BitVec.ofNat 32 p.n.toNat) s) ∧
      exec (.info ra .k) s = .next (respond .ok (BitVec.ofNat 32 p.k.toNat) s) ∧
      exec (.info ra .bc) s = .next (respond .ok (BitVec.ofNat 32 p.bc.toNat) s) ∧
      exec (.info ra .valid) s = .next (respond .ok 1#32 s) ∧ banksKept s (respond .ok 1#32 s)

/-! ### Addressing and counters -/

/-- 00_scope.md R8: `bucketsCount * 8` is the smallest multiple of 8 that is at least `(n + 1) * k`, with at most 7 bits
left over; the rule's examples; at most `n + 1` bytes when `k <= 8`. -/
def Obligations.BucketsCountIsTheLeast : Prop :=
  (∀ n k, (n + 1) * k ≤ bucketsCount n k * 8 ∧ bucketsCount n k * 8 - (n + 1) * k ≤ 7 ∧
    (∀ c, (n + 1) * k ≤ c * 8 → bucketsCount n k ≤ c) ∧ (k ≤ 8 → bucketsCount n k ≤ n + 1)) ∧
  bucketsCount 1 1 = 1 ∧ bucketsCount 3 2 = 1 ∧ bucketsCount 20 3 = 8 ∧ bucketsCount 8 1 = 2 ∧
    bucketsCount 65535 8 = 65536

/-- 20_memory.md R34: for an occupied bank and `e <= n`, the byte of the field, and the next byte when the field
straddles, are in the buffer. -/
def Obligations.FieldsLieInTheBuffer : Prop :=
  ∀ (c : Config) (p : PackedMultiset) (e : Nat), p.wf c = true → e ≤ p.n.toNat →
    byteIndex e p.k.toNat ≤ p.bc.toNat - 1 ∧
      (straddles e p.k.toNat = true → byteIndex e p.k.toNat + 1 ≤ p.bc.toNat - 1)

/-- 41_counter_access.md R80, 20_memory.md R31, R35, R37, 10_state.md R17: COUNT of an element of the domain answers the
number below `2^k` whose binary digits are the field's stream bits, the most significant first, and changes no state
but the response. -/
def Obligations.CountReadsTheField : Prop :=
  ∀ (s : State) (ra : BankId) (e : BitVec 16) (p : PackedMultiset), s.bank ra = .occupied p → p.wf s.cfg = true →
    e.toNat ≤ p.n.toNat →
    ∃ v, exec (.count ra e) s = .next (respond .ok (BitVec.ofNat 32 v) s) ∧ v < 2 ^ p.k.toNat ∧
      ∀ x, x < p.k.toNat →
        v.testBit (p.k.toNat - 1 - x) = p.buckets.streamBit (e.toNat * p.k.toNat + x)

/-- 20_memory.md R39: the laws of the two primitives, (a) read after write, (b) non-interference with other counts and
with padding, (c) only the field's bytes and in them only the field's bits, (d) writing the value already there. -/
def Obligations.CounterPrimitiveLaws : Prop :=
  ∀ (c : Config) (p : PackedMultiset) (e v : Nat), p.wf c = true → e ≤ p.n.toNat → v ≤ maxCount p.k.toNat →
    (p.putField e v).countRaw e = v ∧
    (∀ e', e' ≤ p.n.toNat → e' ≠ e → (p.putField e v).countRaw e' = p.countRaw e') ∧
    (∀ x, isPadding p x → (p.putField e v).buckets.streamBit x = p.buckets.streamBit x) ∧
    (∀ j, j ≠ byteIndex e p.k.toNat → (straddles e p.k.toNat = true → j ≠ byteIndex e p.k.toNat + 1) →
      (p.putField e v).buckets.read j = p.buckets.read j) ∧
    (∀ x, ¬ (e * p.k.toNat ≤ x ∧ x < e * p.k.toNat + p.k.toNat) →
      (p.putField e v).buckets.streamBit x = p.buckets.streamBit x) ∧
    p.putField e (p.countRaw e) = p

/-- 41_counter_access.md R81: INC of an element of the domain adds one to its count and stops at `2^k - 1`; no other count
changes, no bit outside the field and no byte outside the field's one or two bytes changes, and no other bank. -/
def Obligations.IncAddsOneAndSaturates : Prop :=
  ∀ (s : State) (rd : BankId) (e : BitVec 16) (p : PackedMultiset), s.bank rd = .occupied p → p.wf s.cfg = true →
    e.toNat ≤ p.n.toNat →
    ∃ t q, exec (.inc rd e) s = .next t ∧ t.port = .responding ⟨.ok, 0#32⟩ ∧ t.bank rd = .occupied q ∧
      q.n = p.n ∧ q.k = p.k ∧ q.bc = p.bc ∧
      q.countRaw e.toNat = min (p.countRaw e.toNat + 1) (2 ^ p.k.toNat - 1) ∧
      (∀ e', e' ≤ p.n.toNat → e' ≠ e.toNat → q.countRaw e' = p.countRaw e') ∧
      (∀ x, ¬ (e.toNat * p.k.toNat ≤ x ∧ x < e.toNat * p.k.toNat + p.k.toNat) →
        q.buckets.streamBit x = p.buckets.streamBit x) ∧
      (∀ j, j ≠ byteIndex e.toNat p.k.toNat →
        (straddles e.toNat p.k.toNat = true → j ≠ byteIndex e.toNat p.k.toNat + 1) →
        q.buckets.read j = p.buckets.read j) ∧
      otherBanksKept rd s t ∧ sameEnvironment s t

/-- 41_counter_access.md R82: from any state with count `c` of `e`, `m` INC commands give `min(c + m, 2^k - 1)`; right
after CREATE, `COUNT` of `e` then answers `min(m, 2^k - 1)`. -/
def Obligations.IncrementLaw : Prop :=
  (∀ (s : State) (rd : BankId) (e : BitVec 16) (m : Nat) (p : PackedMultiset), s.bank rd = .occupied p →
    p.wf s.cfg = true → e.toNat ≤ p.n.toNat →
    ∃ t, issueRepeated (.inc rd e) m s = some t ∧ exec (.count rd e) t =
      .next (respond .ok (BitVec.ofNat 32 (min (p.countRaw e.toNat + m) (2 ^ p.k.toNat - 1))) t)) ∧
  (∀ (s : State) (rd : BankId) (k : BitVec 8) (n e : BitVec 16) (m : Nat), s.bank rd = .empty → 1 ≤ k.toNat →
    k.toNat ≤ 8 → bucketsCount n.toNat k.toNat ≤ s.cfg.bmax → e.toNat ≤ n.toNat →
    ∃ u t, exec (.create rd k n) s = .next u ∧ issueRepeated (.inc rd e) m (takeResponse u) = some t ∧
      exec (.count rd e) t = .next (respond .ok (BitVec.ofNat 32 (min m (2 ^ k.toNat - 1))) t))

/-- 41_counter_access.md R83: incrementing `e1` any number of times never changes the count of another element `e2`, for
every width, straddling or not, sharing a byte or not, saturated or not. -/
def Obligations.SeparationLaw : Prop :=
  ∀ (s : State) (rd : BankId) (e1 e2 : BitVec 16) (m : Nat) (p : PackedMultiset), s.bank rd = .occupied p →
    p.wf s.cfg = true → e1.toNat ≤ p.n.toNat → e2.toNat ≤ p.n.toNat → e1 ≠ e2 →
    ∃ t q, issueRepeated (.inc rd e1) m s = some t ∧ t.bank rd = .occupied q ∧
      q.countRaw e2.toNat = p.countRaw e2.toNat

/-- 41_counter_access.md R84: when the counts fit, `AddOcc(i, e, m)` has exactly the effect of `PutField(i, e, c + m)`. -/
def Obligations.AddOccIsOneFieldWrite : Prop :=
  ∀ (c : Config) (p : PackedMultiset) (e m : Nat), p.wf c = true → e ≤ p.n.toNat →
    p.countRaw e + m ≤ 2 ^ p.k.toNat - 1 → p.addOcc e m = p.putField e (p.countRaw e + m)

/-! ### Set operators -/

/-- 42_set_operators.md R101: COMPL of an occupied bank into an empty one has the same sizes and every byte inverted,
padding bits included, and changes nothing else. -/
def Obligations.ComplInvertsEveryByte : Prop :=
  ∀ (s : State) (rd ra : BankId) (a : PackedMultiset), s.bank ra = .occupied a → s.bank rd = .empty →
    ∃ t q, exec (.compl rd ra) s = .next t ∧ t.port = .responding ⟨.ok, 0#32⟩ ∧ t.bank rd = .occupied q ∧
      q.n = a.n ∧ q.k = a.k ∧ q.bc = a.bc ∧ (∀ j, j < a.bc.toNat → q.buckets.read j = ~~~ a.buckets.read j) ∧
      otherBanksKept rd s t ∧ sameEnvironment s t

/-- 42_set_operators.md R102: (a) every count becomes `2^k - 1` minus what it was, (b) every count is in `0 .. 2^k - 1`,
(c) COMPL of the result into a third bank gives back the source. -/
def Obligations.ComplLaws : Prop :=
  ∀ (s : State) (rd ra rc : BankId) (a : PackedMultiset), s.bank ra = .occupied a → a.wf s.cfg = true →
    s.bank rd = .empty → s.bank rc = .empty → rc ≠ rd →
    ∃ t q u, exec (.compl rd ra) s = .next t ∧ t.bank rd = .occupied q ∧
      (∀ e, e ≤ a.n.toNat → q.countRaw e = (2 ^ a.k.toNat - 1) - a.countRaw e ∧ q.countRaw e ≤ 2 ^ a.k.toNat - 1) ∧
      exec (.compl rc rd) (takeResponse t) = .next u ∧ u.bank rc = .occupied a

/-- 42_set_operators.md R104, R103: after ISECT, COUNT of every element of the result answers the lesser of the two counts,
INFO answers the lesser `n`, the lesser `k` and their `bucketsCount`; the padding bits are 0 and nothing else changes. -/
def Obligations.IsectIsTheMinimum : Prop :=
  ∀ (s : State) (rd ra rb : BankId) (a b : PackedMultiset), s.bank ra = .occupied a → s.bank rb = .occupied b →
    s.bank rd = .empty → a.wf s.cfg = true → b.wf s.cfg = true →
    ∃ t q, exec (.isect rd ra rb) s = .next t ∧ t.port = .responding ⟨.ok, 0#32⟩ ∧ t.bank rd = .occupied q ∧
      (∀ e : BitVec 16, e.toNat ≤ min a.n.toNat b.n.toNat → exec (.count rd e) (takeResponse t) =
        .next (respond .ok (BitVec.ofNat 32 (min (a.countRaw e.toNat) (b.countRaw e.toNat))) (takeResponse t))) ∧
      exec (.info rd .n) (takeResponse t) =
        .next (respond .ok (BitVec.ofNat 32 (min a.n.toNat b.n.toNat)) (takeResponse t)) ∧
      exec (.info rd .k) (takeResponse t) =
        .next (respond .ok (BitVec.ofNat 32 (min a.k.toNat b.k.toNat)) (takeResponse t)) ∧
      exec (.info rd .bc) (takeResponse t) =
        .next (respond .ok (BitVec.ofNat 32 (bucketsCount (min a.n.toNat b.n.toNat) (min a.k.toNat b.k.toNat)))
          (takeResponse t)) ∧
      (∀ x, isPadding q x → q.buckets.streamBit x = false) ∧ otherBanksKept rd s t ∧ sameEnvironment s t

/-- 42_set_operators.md R103: the result of ISECT does not depend on the order of `ra` and `rb`. -/
def Obligations.IsectCommutes : Prop :=
  ∀ (s : State) (rd ra rb : BankId), exec (.isect rd ra rb) s = exec (.isect rd rb ra) s

/-- 42_set_operators.md R105, R106: after ISECTL, COUNT of every element of the result answers 1 when the element is below
`min(a.bc, b.bc)` and both counts are non-zero, else 0; every index the literal loop visits is in both domains; the
sizes are those of ISECT, the padding bits are 0 and nothing else changes. -/
def Obligations.IsectlClosedForm : Prop :=
  ∀ (s : State) (rd ra rb : BankId) (a b : PackedMultiset), s.bank ra = .occupied a → s.bank rb = .occupied b →
    s.bank rd = .empty → a.wf s.cfg = true → b.wf s.cfg = true →
    ∃ t q, exec (.isectl rd ra rb) s = .next t ∧ t.port = .responding ⟨.ok, 0#32⟩ ∧ t.bank rd = .occupied q ∧
      q.n.toNat = min a.n.toNat b.n.toNat ∧ q.k.toNat = min a.k.toNat b.k.toNat ∧
      q.bc.toNat = bucketsCount (min a.n.toNat b.n.toNat) (min a.k.toNat b.k.toNat) ∧
      (∀ e : BitVec 16, e.toNat ≤ min a.n.toNat b.n.toNat → exec (.count rd e) (takeResponse t) =
        .next (respond .ok (if e.toNat < min a.bc.toNat b.bc.toNat ∧ a.countRaw e.toNat ≠ 0 ∧ b.countRaw e.toNat ≠ 0
          then 1#32 else 0#32) (takeResponse t))) ∧
      (∀ i, i < min a.bc.toNat b.bc.toNat → i ≤ a.n.toNat ∧ i ≤ b.n.toNat) ∧
      (∀ x, isPadding q x → q.buckets.streamBit x = false) ∧ otherBanksKept rd s t ∧ sameEnvironment s t

/-- 42_set_operators.md R108, R107: after DIFF, INFO answers `a`'s sizes, and COUNT of every element of `a`'s domain, `a.n`
included, answers the difference of the counts when it is positive and 0 otherwise, `b`'s count being 0 beyond `b.n`;
the padding bits are 0 and nothing else changes. -/
def Obligations.DiffSubtracts : Prop :=
  ∀ (s : State) (rd ra rb : BankId) (a b : PackedMultiset), s.bank ra = .occupied a → s.bank rb = .occupied b →
    s.bank rd = .empty → a.wf s.cfg = true → b.wf s.cfg = true →
    ∃ t q, exec (.diff rd ra rb) s = .next t ∧ t.port = .responding ⟨.ok, 0#32⟩ ∧ t.bank rd = .occupied q ∧
      (∀ e : BitVec 16, e.toNat ≤ a.n.toNat → exec (.count rd e) (takeResponse t) =
        .next (respond .ok (BitVec.ofNat 32
          (a.countRaw e.toNat - if e.toNat ≤ b.n.toNat then b.countRaw e.toNat else 0)) (takeResponse t))) ∧
      exec (.info rd .n) (takeResponse t) = .next (respond .ok (BitVec.ofNat 32 a.n.toNat) (takeResponse t)) ∧
      exec (.info rd .k) (takeResponse t) = .next (respond .ok (BitVec.ofNat 32 a.k.toNat) (takeResponse t)) ∧
      exec (.info rd .bc) (takeResponse t) = .next (respond .ok (BitVec.ofNat 32 a.bc.toNat) (takeResponse t)) ∧
      (∀ x, isPadding q x → q.buckets.streamBit x = false) ∧ otherBanksKept rd s t ∧ sameEnvironment s t

/-- 42_set_operators.md R110: the sources of COMPL, ISECT, ISECTL and DIFF are not changed, and afterwards the result is
independent of them: a command that writes a source leaves the result as it was. -/
def Obligations.OperatorsKeepTheirSources : Prop :=
  ∀ (s t u : State) (rd ra rb i : BankId) (c d : Instr) (a b : PackedMultiset), s.bank ra = .occupied a →
    s.bank rb = .occupied b → c ∈ [.compl rd ra, .isect rd ra rb, .isectl rd ra rb, .diff rd ra rb] →
    exec c s = .next t →
    t.bank ra = .occupied a ∧ (c ≠ .compl rd ra → t.bank rb = .occupied b) ∧
      (s.bank rd = .empty → (i = ra ∨ i = rb) → destination d = some i →
        exec d (takeResponse t) = .next u → u.bank rd = t.bank rd)

/-- 42_set_operators.md R109: the result of ISECT, ISECTL and DIFF in lane `e` depends on lane `e` of the sources only,
the sizes being equal. -/
def Obligations.LanesDoNotInteract : Prop :=
  ∀ (c : Config) (a b a' b' : PackedMultiset) (e : Nat), a.wf c = true → b.wf c = true → a'.wf c = true →
    b'.wf c = true → a'.n = a.n → a'.k = a.k → b'.n = b.n → b'.k = b.k → e ≤ a.n.toNat →
    a'.countRaw e = a.countRaw e → b'.countRaw e = b.countRaw e →
    (e ≤ b.n.toNat → (isectOf a' b').countRaw e = (isectOf a b).countRaw e ∧
      (isectlOf a' b').countRaw e = (isectlOf a b).countRaw e) ∧
    (diffOf a' b').countRaw e = (diffOf a b).countRaw e

/-- 10_state.md R18: the padding bits are at most 7 and all in the last byte; no count depends on them; they are 0 in a
new instance and in every ISECT, ISECTL and DIFF result, unchanged by INC, inverted by COMPL. -/
def Obligations.PaddingBits : Prop :=
  ∀ (c : Config) (a b : PackedMultiset) (e x : Nat), a.wf c = true → b.wf c = true →
    (isPadding a x → x / 8 = a.bc.toNat - 1 ∧ (a.increment e).buckets.streamBit x = a.buckets.streamBit x ∧
      (complOf a).buckets.streamBit x = !a.buckets.streamBit x ∧
      (newInst a.n a.k).buckets.streamBit x = false ∧ (diffOf a b).buckets.streamBit x = false) ∧
    (isPadding (isectOf a b) x → (isectOf a b).buckets.streamBit x = false ∧
      (isectlOf a b).buckets.streamBit x = false) ∧
    a.bc.toNat * 8 - (a.n.toNat + 1) * a.k.toNat ≤ 7 ∧
    (b.n = a.n → b.k = a.k → (∀ y, ¬ isPadding a y → b.buckets.streamBit y = a.buckets.streamBit y) →
      e ≤ a.n.toNat → b.countRaw e = a.countRaw e)

/-! ### Raw bytes -/

/-- 43_raw_byte_access.md R120, 20_memory.md R35: RDB of a byte of the buffer answers that byte, whose bit 7 is stream bit
`8 * idx` and whose bit 0 is stream bit `8 * idx + 7`, and changes no state but the response. -/
def Obligations.RdbReturnsTheByte : Prop :=
  ∀ (s : State) (ra : BankId) (idx : BitVec 16) (p : PackedMultiset), s.bank ra = .occupied p →
    idx.toNat < p.bc.toNat →
    ∃ y : Byte, exec (.rdb ra idx) s = .next (respond .ok (y.setWidth 32) s) ∧ y = p.buckets.read idx.toNat ∧
      ∀ x, x < 8 → y.getLsbD (7 - x) = p.buckets.streamBit (8 * idx.toNat + x)

/-- 43_raw_byte_access.md R121: WRB of a byte of the buffer sets that byte to any value and leaves every other byte, the
sizes, and every other bank as they were. -/
def Obligations.WrbSetsTheByte : Prop :=
  ∀ (s : State) (rd : BankId) (idx : BitVec 16) (y : Byte) (p : PackedMultiset), s.bank rd = .occupied p →
    p.buckets.wf = true → idx.toNat < p.bc.toNat →
    ∃ t q, exec (.wrb rd idx y) s = .next t ∧ t.port = .responding ⟨.ok, 0#32⟩ ∧ t.bank rd = .occupied q ∧
      q.n = p.n ∧ q.k = p.k ∧ q.bc = p.bc ∧ q.buckets.read idx.toNat = y ∧
      (∀ j, j ≠ idx.toNat → q.buckets.read j = p.buckets.read j) ∧ otherBanksKept rd s t ∧ sameEnvironment s t

/-- 43_raw_byte_access.md R122 (a), (b), (c), (e): RDB after WRB answers the byte written, RDB of another byte answers what
it did, after CREATE every RDB answers 0, after COMPL `RDB rd, j` answers 255 minus what `RDB ra, j` answers. -/
def Obligations.RawAccessLaws : Prop :=
  (∀ (s : State) (rd : BankId) (idx idx' : BitVec 16) (y : Byte) (p : PackedMultiset), s.bank rd = .occupied p →
    p.wf s.cfg = true → idx.toNat < p.bc.toNat → idx'.toNat < p.bc.toNat →
    ∃ t, exec (.wrb rd idx y) s = .next t ∧
      exec (.rdb rd idx) (takeResponse t) = .next (respond .ok (y.setWidth 32) (takeResponse t)) ∧
      (idx' ≠ idx → exec (.rdb rd idx') (takeResponse t) =
        .next (respond .ok ((p.buckets.read idx'.toNat).setWidth 32) (takeResponse t)))) ∧
  (∀ (s : State) (rd : BankId) (k : BitVec 8) (n idx : BitVec 16), s.bank rd = .empty → 1 ≤ k.toNat → k.toNat ≤ 8 →
    bucketsCount n.toNat k.toNat ≤ s.cfg.bmax → idx.toNat < bucketsCount n.toNat k.toNat →
    ∃ t, exec (.create rd k n) s = .next t ∧
      exec (.rdb rd idx) (takeResponse t) = .next (respond .ok 0#32 (takeResponse t))) ∧
  (∀ (s : State) (rd ra : BankId) (idx : BitVec 16) (a : PackedMultiset), s.bank ra = .occupied a → s.bank rd = .empty →
    idx.toNat < a.bc.toNat →
    ∃ t, exec (.compl rd ra) s = .next t ∧ exec (.rdb rd idx) (takeResponse t) =
      .next (respond .ok (BitVec.ofNat 32 (255 - (a.buckets.read idx.toNat).toNat)) (takeResponse t)))

/-- 43_raw_byte_access.md R122 (f): the count of `e` is a function of the byte `byteIndex(e, k)` and, if the field straddles,
the next, as 20_memory.md R37 computes it. -/
def Obligations.CountIsAFunctionOfItsBytes : Prop :=
  ∀ (p q : PackedMultiset) (e : Nat), q.k = p.k →
    q.buckets.read (byteIndex e p.k.toNat) = p.buckets.read (byteIndex e p.k.toNat) →
    (straddles e p.k.toNat = true →
      q.buckets.read (byteIndex e p.k.toNat + 1) = p.buckets.read (byteIndex e p.k.toNat + 1)) →
    q.countRaw e = p.countRaw e

/-! ### The host's procedures -/

/-- 30_encoding.md R65, as the model's host issues it (log 10): DUMP of an occupied bank yields `n`, `k`, `bucketsCount` and the bytes in order and changes no
state; DUMP of an empty bank yields nothing. -/
def Obligations.DumpReadsTheInstance : Prop :=
  ∀ (s : State) (a : BankId),
    (∀ p, s.bank a = .occupied p → p.wf s.cfg = true →
      dump a s = some (⟨p.n.toNat, p.k.toNat, p.bc.toNat, (List.range p.bc.toNat).map p.buckets.read⟩,
        { s with port := .idle })) ∧
    (s.bank a = .empty → dump a s = none)

/-- 30_encoding.md R66, 43_raw_byte_access.md R122 (d), as the model's host issues it (log 10): LOAD of what DUMP yielded
makes any bank, empty or occupied, hold the same instance, byte for byte, and leaves every other bank as it was. -/
def Obligations.LoadOfDumpRestoresTheInstance : Prop :=
  ∀ (s t : State) (a d : BankId) (p : PackedMultiset) (im : Image), s.wf = true → s.bank a = .occupied p →
    dump a s = some (im, t) →
    ∃ u, load d im t = some (.loaded, u) ∧ u.bank d = .occupied p ∧ otherBanksKept d s u ∧ sameEnvironment s u ∧
      u.port = .idle

/-- 30_encoding.md R66, as the model's host issues it (log 10): a triple whose `bucketsCount` is not the block's for its `n` and `k` is refused with the host-level
outcome `CorruptData`, the bank ends empty and every other bank is as it was. -/
def Obligations.LoadRefusesCorruptImage : Prop :=
  ∀ (s : State) (d : BankId) (im : Image), im.n < 65536 → 1 ≤ im.k → im.k ≤ 8 → bucketsCount im.n im.k ≤ s.cfg.bmax →
    im.bytes.length = im.bc → im.bc ≠ bucketsCount im.n im.k →
    ∃ u, load d im s = some (.corruptData, u) ∧ u.bank d = .empty ∧ otherBanksKept d s u ∧ sameEnvironment s u ∧
      u.port = .idle
end

