-- ==== Sys2Proof/Laws/State.lean ====
section
/-! SUPPORT. The small lemmas of the state: one per field per update, and reading a bank after writing one. -/

namespace Sys2Proof.Machine

@[simp] theorem setBank_cfg (s : State) (i : BankId) (b : Bank) : (s.setBank i b).cfg = s.cfg := by cases i <;> rfl
@[simp] theorem setBank_port (s : State) (i : BankId) (b : Bank) : (s.setBank i b).port = s.port := by cases i <;> rfl
@[simp] theorem setBank_host (s : State) (i : BankId) (b : Bank) : (s.setBank i b).host = s.host := by cases i <;> rfl

theorem bank_setBank (s : State) (i j : BankId) (b : Bank) :
    (s.setBank i b).bank j = if j = i then b else s.bank j := by
  cases i <;> cases j <;> rfl

@[simp] theorem bank_setBank_self (s : State) (i : BankId) (b : Bank) : (s.setBank i b).bank i = b := by
  simp [bank_setBank]

theorem bank_setBank_ne {i j : BankId} (h : j ≠ i) (s : State) (b : Bank) : (s.setBank i b).bank j = s.bank j := by
  simp [bank_setBank, h]

/-- Writing what is there changes nothing. -/
@[simp] theorem setBank_bank (s : State) (i : BankId) : s.setBank i (s.bank i) = s := by cases i <;> rfl

/-- A state is its four banks, its port, and the two fields of the model's own. -/
theorem state_ext {s t : State} (hc : t.cfg = s.cfg) (hb : ∀ i, t.bank i = s.bank i) (hp : t.port = s.port)
    (hh : t.host = s.host) : t = s := by
  have h0 := hb .b0
  have h1 := hb .b1
  have h2 := hb .b2
  have h3 := hb .b3
  cases s
  cases t
  simp_all [State.bank]

@[simp] theorem respond_cfg (st : Status) (d : Word) (s : State) : (respond st d s).cfg = s.cfg := rfl
@[simp] theorem respond_host (st : Status) (d : Word) (s : State) : (respond st d s).host = s.host := rfl
@[simp] theorem respond_port (st : Status) (d : Word) (s : State) : (respond st d s).port = .responding ⟨st, d⟩ := rfl
@[simp] theorem respond_bank (st : Status) (d : Word) (s : State) (i : BankId) : (respond st d s).bank i = s.bank i := by
  cases i <;> rfl

@[simp] theorem raise_cfg (e : Status) (s : State) : (raise e s).cfg = s.cfg := rfl
@[simp] theorem raise_host (e : Status) (s : State) : (raise e s).host = s.host := rfl
@[simp] theorem raise_port (e : Status) (s : State) : (raise e s).port = .responding ⟨e, 0#32⟩ := rfl
@[simp] theorem raise_bank (e : Status) (s : State) (i : BankId) : (raise e s).bank i = s.bank i := by cases i <;> rfl

@[simp] theorem takeResponse_cfg (s : State) : (takeResponse s).cfg = s.cfg := rfl
@[simp] theorem takeResponse_host (s : State) : (takeResponse s).host = s.host := rfl
@[simp] theorem takeResponse_port (s : State) : (takeResponse s).port = .idle := rfl
@[simp] theorem takeResponse_bank (s : State) (i : BankId) : (takeResponse s).bank i = s.bank i := by cases i <;> rfl

@[simp] theorem resetBlock_cfg (s : State) : (resetBlock s).cfg = s.cfg := rfl
@[simp] theorem resetBlock_host (s : State) : (resetBlock s).host = s.host := rfl
@[simp] theorem resetBlock_port (s : State) : (resetBlock s).port = .idle := rfl
@[simp] theorem resetBlock_bank (s : State) (i : BankId) : (resetBlock s).bank i = .empty := by cases i <;> rfl

@[simp] theorem advance_cfg (s : State) : (advance s).cfg = s.cfg := rfl
@[simp] theorem advance_host (s : State) : (advance s).host = s.host.tail := rfl
@[simp] theorem advance_port (s : State) : (advance s).port = s.port := rfl
@[simp] theorem advance_bank (s : State) (i : BankId) : (advance s).bank i = s.bank i := by cases i <;> rfl

@[simp] theorem acceptWord_cfg (w : Word) (s : State) : (acceptWord w s).cfg = s.cfg := rfl
@[simp] theorem acceptWord_host (w : Word) (s : State) : (acceptWord w s).host = s.host := rfl
@[simp] theorem acceptWord_port (w : Word) (s : State) : (acceptWord w s).port = .executing w := rfl
@[simp] theorem acceptWord_bank (w : Word) (s : State) (i : BankId) : (acceptWord w s).bank i = s.bank i := by
  cases i <;> rfl

@[simp] theorem placeWord_cfg (w : Word) (s : State) : (placeWord w s).cfg = s.cfg := rfl
@[simp] theorem placeWord_host (w : Word) (s : State) : (placeWord w s).host = quietPins :: s.host := rfl
@[simp] theorem placeWord_port (w : Word) (s : State) : (placeWord w s).port = .executing w := rfl
@[simp] theorem placeWord_bank (w : Word) (s : State) (i : BankId) : (placeWord w s).bank i = s.bank i := by
  cases i <;> rfl

@[simp] theorem fill_cfg (rd : BankId) (p : PackedMultiset) (s : State) : (fill rd p s).cfg = s.cfg := by simp [fill]
@[simp] theorem fill_host (rd : BankId) (p : PackedMultiset) (s : State) : (fill rd p s).host = s.host := by simp [fill]
@[simp] theorem fill_port (rd : BankId) (p : PackedMultiset) (s : State) :
    (fill rd p s).port = .responding ⟨.ok, 0#32⟩ := rfl

/-- The banks after a filling command: the destination holds the new instance, the others are as they were. -/
theorem fill_bank (rd j : BankId) (p : PackedMultiset) (s : State) :
    (fill rd p s).bank j = if j = rd then .occupied p else s.bank j := by simp [fill, bank_setBank]

/-! ### The operand forms -/

theorem needOccupied_empty {i : BankId} {s : State} (h : s.bank i = .empty) (go : PackedMultiset → State) :
    needOccupied i s go = raise .noinst s := by simp [needOccupied, h]

theorem needOccupied_occupied {i : BankId} {s : State} {p : PackedMultiset} (h : s.bank i = .occupied p)
    (go : PackedMultiset → State) : needOccupied i s go = go p := by simp [needOccupied, h]

theorem needEmpty_empty {i : BankId} {s : State} (h : s.bank i = .empty) (go : State) :
    needEmpty i s go = go := by simp [needEmpty, h]

theorem needEmpty_occupied {i : BankId} {s : State} {p : PackedMultiset} (h : s.bank i = .occupied p) (go : State) :
    needEmpty i s go = raise .busy s := by simp [needEmpty, h]

end Sys2Proof.Machine
end

