-- ==== Sys2Proof/Laws/Exec.lean ====
section
/-! SUPPORT. What a command and a step can do, said once: every command answers a next state of one of three shapes,
and a step does one of six things. -/

namespace Sys2Proof.Machine

/-! ### CREATE after `ERR_BUSY`, case by case (40_lifecycle.md R70) -/

theorem createIn_width {k : BitVec 8} (h : k.toNat = 0 ∨ 9 ≤ k.toNat) (rd : BankId) (n : BitVec 16) (s : State) :
    createIn rd k n s = raise .width s :=
  if_pos (by rw [kMin, kMax]; omega)

theorem createIn_capacity {k : BitVec 8} {n : BitVec 16} {s : State} (h1 : 1 ≤ k.toNat) (h8 : k.toNat ≤ 8)
    (hc : s.cfg.bmax < bucketsCount n.toNat k.toNat) (rd : BankId) : createIn rd k n s = raise .capacity s := by
  rw [createIn, if_neg (by rw [kMin, kMax]; omega), if_pos hc]

theorem createIn_fill {k : BitVec 8} {n : BitVec 16} {s : State} (h1 : 1 ≤ k.toNat) (h8 : k.toNat ≤ 8)
    (hc : bucketsCount n.toNat k.toNat ≤ s.cfg.bmax) (rd : BankId) :
    createIn rd k n s = fill rd (newInst n (k.setWidth 4)) s := by
  rw [createIn, if_neg (by rw [kMin, kMax]; omega), if_neg (Nat.not_lt.2 hc)]

/-- A legal counter width survives the narrowing of 10_state.md R13. -/
theorem setWidth_four {k : BitVec 8} (h : k.toNat ≤ 8) : (k.setWidth 4).toNat = k.toNat := by
  rw [BitVec.toNat_setWidth, Nat.mod_eq_of_lt (by omega)]

/-! ### The shapes of a next state -/

/-- The three shapes of a command's next state: an error with nothing written, an answer with nothing written, and an
answer with the destination bank written. -/
inductive Effect (c : Instr) (s : State) : State → Prop where
  | error (e : Status) (h : e ≠ .ok) : Effect c s (raise e s)
  | answer (d : Word) : Effect c s (respond .ok d s)
  | write (rd : BankId) (b : Bank) (h : destination c = some rd) : Effect c s (respond .ok 0#32 (s.setBank rd b))

theorem Effect.needOccupied {c : Instr} {s : State} {i : BankId} {go : PackedMultiset → State}
    (h : ∀ p, Effect c s (go p)) : Effect c s (needOccupied i s go) := by
  cases hb : s.bank i with
  | empty => rw [needOccupied_empty hb]; exact .error _ (by decide)
  | occupied p => rw [needOccupied_occupied hb]; exact h p

theorem Effect.needEmpty {c : Instr} {s : State} {i : BankId} {go : State}
    (h : Effect c s go) : Effect c s (needEmpty i s go) := by
  cases hb : s.bank i with
  | empty => rwa [needEmpty_empty hb]
  | occupied p => rw [needEmpty_occupied hb]; exact .error _ (by decide)

/-- Every command answers a next state of one of the three shapes. -/
theorem exec_effect (c : Instr) (s : State) : ∃ t, exec c s = .next t ∧ Effect c s t := by
  cases c with
  | create rd k n =>
    refine ⟨_, rfl, .needEmpty ?_⟩
    rw [createIn]
    split_ifs
    · exact .error _ (by decide)
    · exact .error _ (by decide)
    · exact .write rd _ rfl
  | free rd => exact ⟨_, rfl, .needOccupied fun _ => .write rd _ rfl⟩
  | copy rd ra => exact ⟨_, rfl, .needOccupied fun _ => .needEmpty (.write rd _ rfl)⟩
  | info ra sel =>
    refine ⟨_, rfl, ?_⟩
    split_ifs
    · exact .answer _
    · exact .needOccupied fun _ => .answer _
  | count ra e =>
    refine ⟨_, rfl, .needOccupied fun _ => ?_⟩
    split_ifs
    · exact .error _ (by decide)
    · exact .answer _
  | inc rd e => exact ⟨_, rfl, .needOccupied fun _ => .write rd _ rfl⟩
  | compl rd ra => exact ⟨_, rfl, .needOccupied fun _ => .needEmpty (.write rd _ rfl)⟩
  | isect rd ra rb => exact ⟨_, rfl, .needOccupied fun _ => .needOccupied fun _ => .needEmpty (.write rd _ rfl)⟩
  | isectl rd ra rb => exact ⟨_, rfl, .needOccupied fun _ => .needOccupied fun _ => .needEmpty (.write rd _ rfl)⟩
  | diff rd ra rb => exact ⟨_, rfl, .needOccupied fun _ => .needOccupied fun _ => .needEmpty (.write rd _ rfl)⟩
  | rdb ra idx =>
    refine ⟨_, rfl, .needOccupied fun _ => ?_⟩
    split_ifs
    · exact .error _ (by decide)
    · exact .answer _
  | wrb rd idx byte =>
    refine ⟨_, rfl, .needOccupied fun _ => ?_⟩
    split_ifs
    · exact .error _ (by decide)
    · exact .write rd _ rfl

/-- The shape of the next state a command answers. -/
theorem effect_of_exec {c : Instr} {s t : State} (h : exec c s = .next t) : Effect c s t := by
  obtain ⟨u, hu, he⟩ := exec_effect c s
  rw [hu] at h
  cases h
  exact he

/-- The six things a step can do (30_encoding.md R51, 70_reset_and_hazards.md R150). -/
inductive StepKind (s : State) : State → Prop where
  | reset (h : (sample s).rst = true) : StepKind s (resetBlock (advance s))
  | accept (h : (sample s).rst = false) (hp : s.port = .idle) (hv : (sample s).cmdValid = true) :
      StepKind s (acceptWord (sample s).cmdWord (advance s))
  | take (h : (sample s).rst = false) (r : Response) (hp : s.port = .responding r) (hv : (sample s).rspReady = true) :
      StepKind s (takeResponse (advance s))
  | wait (h : (sample s).rst = false) (hp : s.port = .idle ∨ ∃ r, s.port = .responding r) : StepKind s (advance s)
  | illegal (h : (sample s).rst = false) (w : Word) (hp : s.port = .executing w) (x : DecodeError)
      (hd : decode w = .error x) : StepKind s (raise .illegal (advance s))
  | run (h : (sample s).rst = false) (w : Word) (hp : s.port = .executing w) (c : Instr) (hd : decode w = .ok c)
      (t : State) (he : exec c (advance s) = .next t) : StepKind s t

/-- A step answers a next state, by one of the six. -/
theorem step_kind (s : State) : ∃ t, step s = .next t ∧ StepKind s t := by
  rw [step, clockEdge]
  cases hr : (sample s).rst with
  | true => exact ⟨_, rfl, .reset hr⟩
  | false =>
    cases hp : s.port with
    | idle =>
      cases hv : (sample s).cmdValid with
      | true => exact ⟨_, rfl, .accept hr hp hv⟩
      | false => exact ⟨_, rfl, .wait hr (.inl hp)⟩
    | responding r =>
      cases hv : (sample s).rspReady with
      | true => exact ⟨_, rfl, .take hr r hp hv⟩
      | false => exact ⟨_, rfl, .wait hr (.inr ⟨r, hp⟩)⟩
    | executing w =>
      cases hd : decode w with
      | error x =>
        refine ⟨raise .illegal (advance s), ?_, .illegal hr w hp x hd⟩
        simp [runWord, hd]
      | ok c =>
        obtain ⟨t, ht, -⟩ := exec_effect c (advance s)
        refine ⟨t, ?_, .run hr w hp c hd t ht⟩
        simp [runWord, hd, ht]

/-- What the next state of a step came from. -/
theorem kind_of_step {s t : State} (h : step s = .next t) : StepKind s t := by
  obtain ⟨u, hu, hk⟩ := step_kind s
  rw [hu] at h
  cases h
  exact hk

end Sys2Proof.Machine
end

