-- ==== Sys2Proof/Laws/Memory.lean ====
section
/-! SUPPORT. The laws of a bank's buffer: every operation keeps the canonical form, a read after a write, and two
buffers in canonical form with equal bytes are equal. -/

namespace Sys2Proof.Machine

@[simp] theorem Memory.read_nil (a : Nat) : Memory.read [] a = 0#8 := rfl

theorem Memory.read_cons (b : Nat) (y : Byte) (t : Memory) (a : Nat) :
    Memory.read ((b, y) :: t) a = if a = b then y else Memory.read t a := rfl

theorem Memory.wfFrom_cons {lo b : Nat} {y : Byte} {t : Memory} :
    Memory.wfFrom lo ((b, y) :: t) = true ↔ lo ≤ b ∧ y ≠ 0#8 ∧ Memory.wfFrom (b + 1) t = true := by
  rw [Memory.wfFrom, Bool.and_eq_true, Bool.and_eq_true, decide_eq_true_eq, decide_eq_true_eq, and_assoc]
  rfl

theorem Memory.wfFrom_mono {lo lo' : Nat} {m : Memory} (hl : lo' ≤ lo) (h : Memory.wfFrom lo m = true) :
    Memory.wfFrom lo' m = true := by
  cases m with
  | nil => rfl
  | cons c t =>
    obtain ⟨b, y⟩ := c
    rw [Memory.wfFrom_cons] at h ⊢
    exact ⟨by omega, h.2⟩

/-- Below its first address a buffer reads as unlisted. -/
theorem Memory.read_before {lo : Nat} {m : Memory} (h : Memory.wfFrom lo m = true) {a : Nat} (ha : a < lo) :
    m.read a = 0#8 := by
  induction m generalizing lo with
  | nil => rfl
  | cons c t ih =>
    obtain ⟨b, y⟩ := c
    rw [Memory.wfFrom_cons] at h
    rw [Memory.read_cons, if_neg (by omega)]
    exact ih h.2.2 (by omega)

theorem Memory.wfFrom_cell_append {lo a : Nat} {y : Byte} {t : Memory} (hl : lo ≤ a)
    (h : Memory.wfFrom (a + 1) t = true) : Memory.wfFrom lo (Memory.cell a y ++ t) = true := by
  by_cases hy : y = 0#8
  · simpa [Memory.cell, Memory.unlisted, hy] using Memory.wfFrom_mono (by omega) h
  · simp [Memory.cell, Memory.unlisted, hy, Memory.wfFrom_cons, hl, h]

theorem Memory.read_cell_append {a : Nat} {y : Byte} {t : Memory} (h : Memory.wfFrom (a + 1) t = true) (b : Nat) :
    Memory.read (Memory.cell a y ++ t) b = if b = a then y else t.read b := by
  by_cases hy : y = 0#8
  · by_cases hb : b = a
    · subst hb
      simp [Memory.cell, Memory.unlisted, hy, Memory.read_before h (Nat.lt_succ_self b)]
    · simp [Memory.cell, Memory.unlisted, hy, hb]
  · simp [Memory.cell, Memory.unlisted, hy, Memory.read_cons]

theorem Memory.wfFrom_write {lo a : Nat} {y : Byte} {m : Memory} (hl : lo ≤ a) (h : Memory.wfFrom lo m = true) :
    Memory.wfFrom lo (m.write a y) = true := by
  induction m generalizing lo with
  | nil => simpa [Memory.write] using Memory.wfFrom_cell_append (y := y) (t := []) hl rfl
  | cons c t ih =>
    obtain ⟨b, x⟩ := c
    have hc := Memory.wfFrom_cons.1 h
    unfold Memory.write
    split_ifs with h1 h2
    · exact Memory.wfFrom_cell_append hl (Memory.wfFrom_cons.2 ⟨h1, hc.2⟩)
    · subst h2
      exact Memory.wfFrom_cell_append hl hc.2.2
    · exact Memory.wfFrom_cons.2 ⟨hc.1, hc.2.1, ih (by omega) hc.2.2⟩

/-- A write keeps the canonical form. -/
theorem Memory.wf_write {m : Memory} (h : m.wf = true) (a : Nat) (y : Byte) : (m.write a y).wf = true :=
  Memory.wfFrom_write (Nat.zero_le a) h

theorem Memory.read_write_from {lo a : Nat} {y : Byte} {m : Memory} (hl : lo ≤ a) (h : Memory.wfFrom lo m = true)
    (b : Nat) : (m.write a y).read b = if b = a then y else m.read b := by
  induction m generalizing lo with
  | nil => simpa [Memory.write] using Memory.read_cell_append (a := a) (y := y) (t := []) rfl b
  | cons c t ih =>
    obtain ⟨d, x⟩ := c
    have hc := Memory.wfFrom_cons.1 h
    rw [Memory.write]
    by_cases h1 : a < d
    · rw [if_pos h1, Memory.read_cell_append (Memory.wfFrom_cons.2 ⟨h1, hc.2⟩)]
    · rw [if_neg h1]
      by_cases h2 : a = d
      · subst h2
        rw [if_pos rfl, Memory.read_cell_append hc.2.2, Memory.read_cons]
        by_cases h3 : b = a <;> simp [h3]
      · rw [if_neg h2, Memory.read_cons, Memory.read_cons, ih (by omega) hc.2.2]
        by_cases h3 : b = d
        · rw [if_pos h3, if_pos h3, if_neg (by omega)]
        · rw [if_neg h3, if_neg h3]

/-- A read after a write: the byte written, and every other byte as it was. -/
theorem Memory.read_write {m : Memory} (h : m.wf = true) (a : Nat) (y : Byte) (b : Nat) :
    (m.write a y).read b = if b = a then y else m.read b := Memory.read_write_from (Nat.zero_le a) h b

theorem Memory.ext_from {lo : Nat} {m m' : Memory} (h : Memory.wfFrom lo m = true) (h' : Memory.wfFrom lo m' = true)
    (hr : ∀ a, m.read a = m'.read a) : m = m' := by
  induction m generalizing lo m' with
  | nil =>
    cases m' with
    | nil => rfl
    | cons c t =>
      obtain ⟨b, y⟩ := c
      have hb := hr b
      rw [Memory.read_cons, if_pos rfl, Memory.read_nil] at hb
      exact absurd hb.symm (Memory.wfFrom_cons.1 h').2.1
  | cons c t ih =>
    obtain ⟨b, y⟩ := c
    have hc := Memory.wfFrom_cons.1 h
    cases m' with
    | nil =>
      have hb := hr b
      rw [Memory.read_cons, if_pos rfl, Memory.read_nil] at hb
      exact absurd hb hc.2.1
    | cons c' t' =>
      obtain ⟨b', y'⟩ := c'
      have hc' := Memory.wfFrom_cons.1 h'
      have hbb : b = b' := by
        rcases Nat.lt_trichotomy b b' with hlt | heq | hgt
        · have hb := hr b
          rw [Memory.read_cons, if_pos rfl, Memory.read_cons, if_neg (by omega),
            Memory.read_before hc'.2.2 (by omega)] at hb
          exact absurd hb hc.2.1
        · exact heq
        · have hb := hr b'
          rw [Memory.read_cons, if_neg (by omega), Memory.read_cons, if_pos rfl,
            Memory.read_before hc.2.2 (by omega)] at hb
          exact absurd hb.symm hc'.2.1
      subst hbb
      have hyy : y = y' := by simpa [Memory.read_cons] using hr b
      subst hyy
      rw [ih hc.2.2 hc'.2.2 fun a => ?_]
      by_cases ha : a = b
      · subst ha
        rw [Memory.read_before hc.2.2 (Nat.lt_succ_self a), Memory.read_before hc'.2.2 (Nat.lt_succ_self a)]
      · simpa [Memory.read_cons, ha] using hr a

/-- Two buffers in canonical form with equal bytes are equal. -/
theorem Memory.ext {m m' : Memory} (h : m.wf = true) (h' : m'.wf = true) (hr : ∀ a, m.read a = m'.read a) : m = m' :=
  Memory.ext_from h h' hr

/-- Writing the byte that is there changes nothing. -/
theorem Memory.write_read_self {m : Memory} (h : m.wf = true) (a : Nat) : m.write a (m.read a) = m := by
  refine Memory.ext (Memory.wf_write h a _) h fun b => ?_
  rw [Memory.read_write h]
  split_ifs with hb
  · rw [hb]
  · rfl

/-! ### The bound on the listed addresses -/

theorem Memory.below_cell_append {c a : Nat} {y : Byte} {t : Memory} (ha : a < c) (h : t.below c = true) :
    Memory.below c (Memory.cell a y ++ t) = true := by
  have hcell : Memory.below c (Memory.cell a y) = true := by
    by_cases hy : y = 0#8 <;> simp [Memory.cell, Memory.unlisted, Memory.below, hy, ha]
  simp only [Memory.below, List.all_append, Bool.and_eq_true] at *
  exact ⟨hcell, h⟩

/-- A write below the bound keeps the bound. -/
theorem Memory.below_write {c a : Nat} {y : Byte} {m : Memory} (ha : a < c) (h : m.below c = true) :
    (m.write a y).below c = true := by
  induction m with
  | nil => simpa [Memory.write] using Memory.below_cell_append (y := y) (t := []) ha rfl
  | cons d t ih =>
    obtain ⟨b, x⟩ := d
    have hd : b < c ∧ Memory.below c t = true := by simpa [Memory.below] using h
    unfold Memory.write
    split_ifs with h1 h2
    · exact Memory.below_cell_append ha h
    · exact Memory.below_cell_append ha hd.2
    · have := ih hd.2
      simp only [Memory.below, List.all_cons, Bool.and_eq_true, decide_eq_true_eq] at *
      exact ⟨hd.1, this⟩

/-- At or above the bound a buffer reads as unlisted. -/
theorem Memory.read_above {c a : Nat} {m : Memory} (h : m.below c = true) (ha : c ≤ a) : m.read a = 0#8 := by
  induction m with
  | nil => rfl
  | cons d t ih =>
    obtain ⟨b, x⟩ := d
    have hd : b < c ∧ Memory.below c t = true := by simpa [Memory.below] using h
    rw [Memory.read_cons, if_neg (by omega), ih hd.2]

/-! ### The zero-filled buffer and the buffer given by its bytes -/

@[simp] theorem Memory.read_zeroFilled (a : Nat) : Memory.zeroFilled.read a = 0#8 := rfl
@[simp] theorem Memory.wf_zeroFilled : Memory.zeroFilled.wf = true := rfl
@[simp] theorem Memory.below_zeroFilled (c : Nat) : Memory.zeroFilled.below c = true := rfl

theorem Memory.below_cells {c : Nat} {l : List Nat} (f : Nat → Byte) (h : ∀ j ∈ l, j < c) :
    Memory.below c (l.flatMap fun j => Memory.cell j (f j)) = true := by
  induction l with
  | nil => rfl
  | cons a t ih =>
    rw [List.flatMap_cons]
    exact Memory.below_cell_append (h a (by simp)) (ih fun j hj => h j (by simp [hj]))

theorem Memory.wfFrom_cells {l : List Nat} (f : Nat → Byte) {lo : Nat} (hp : l.Pairwise (· < ·)) (hl : ∀ j ∈ l, lo ≤ j) :
    Memory.wfFrom lo (l.flatMap fun j => Memory.cell j (f j)) = true := by
  induction l generalizing lo with
  | nil => rfl
  | cons a t ih =>
    rw [List.flatMap_cons]
    rw [List.pairwise_cons] at hp
    exact Memory.wfFrom_cell_append (hl a (by simp)) (ih hp.2 fun j hj => hp.1 j hj)

theorem Memory.read_cells {l : List Nat} (f : Nat → Byte) (hp : l.Pairwise (· < ·)) (a : Nat) :
    Memory.read (l.flatMap fun j => Memory.cell j (f j)) a = if a ∈ l then f a else 0#8 := by
  induction l with
  | nil => rfl
  | cons b t ih =>
    rw [List.pairwise_cons] at hp
    rw [List.flatMap_cons, Memory.read_cell_append (Memory.wfFrom_cells f hp.2 fun j hj => hp.1 j hj), ih hp.2]
    by_cases hb : a = b
    · simp [hb]
    · simp [hb]

theorem Memory.wf_tabulate (c : Nat) (f : Nat → Byte) : (Memory.tabulate c f).wf = true :=
  Memory.wfFrom_cells f List.pairwise_lt_range fun _ _ => Nat.zero_le _

theorem Memory.below_tabulate (c : Nat) (f : Nat → Byte) : (Memory.tabulate c f).below c = true :=
  Memory.below_cells f fun _ hj => List.mem_range.1 hj

/-- The bytes of a buffer given by its bytes. -/
theorem Memory.read_tabulate (c : Nat) (f : Nat → Byte) (a : Nat) :
    (Memory.tabulate c f).read a = if a < c then f a else 0#8 := by
  rw [Memory.tabulate, Memory.read_cells f List.pairwise_lt_range]
  simp

/-! ### The two-byte window -/

theorem Memory.wf_writeWindow {m : Memory} (h : m.wf = true) (a : Nat) (v : BitVec 16) :
    (m.writeWindow a v).wf = true := Memory.wf_write (Memory.wf_write h _ _) _ _

theorem Memory.below_writeWindow {c a : Nat} {m : Memory} (ha : a + 1 < c) (h : m.below c = true) (v : BitVec 16) :
    (m.writeWindow a v).below c = true := Memory.below_write ha (Memory.below_write (by omega) h)

/-- A read after a window write. -/
theorem Memory.read_writeWindow {m : Memory} (h : m.wf = true) (a : Nat) (v : BitVec 16) (b : Nat) :
    (m.writeWindow a v).read b =
      if b = a then v.extractLsb' 8 8 else if b = a + 1 then v.extractLsb' 0 8 else m.read b := by
  rw [Memory.writeWindow, Memory.read_write (Memory.wf_write h _ _), Memory.read_write h]
  by_cases h1 : b = a
  · subst h1
    simp
  · simp [h1]

end Sys2Proof.Machine
end

