-- ==== Sys2Proof/Laws/Fields.lean ====
section
/-! SUPPORT. What the two primitives do, said once in terms of the bit stream (20_memory.md R31): the read gives the
number whose binary digits are the field's stream bits, the write changes exactly those bits. -/

namespace Sys2Proof.Machine

/-- A number is below `2^k` when it has no bit at or above `k`. -/
theorem testBit_of_le {v k i : Nat} (hv : v < 2 ^ k) (hi : k ≤ i) : v.testBit i = false :=
  Nat.testBit_lt_two_pow (Nat.lt_of_lt_of_le hv (Nat.pow_le_pow_right (by omega) hi))

/-- Two numbers below `2^k` are equal when they agree on the bits below `k`. -/
theorem eq_of_testBit_lt {v v' k : Nat} (hv : v < 2 ^ k) (hv' : v' < 2 ^ k)
    (h : ∀ i, i < k → v.testBit i = v'.testBit i) : v = v' := by
  refine Nat.eq_of_testBit_eq fun i => ?_
  by_cases hi : i < k
  · exact h i hi
  · rw [testBit_of_le hv (by omega), testBit_of_le hv' (by omega)]

/-! ### One byte and one window -/

/-- A bit of a masked and shifted value. -/
theorem testBit_masked {w : Nat} (y : BitVec w) (sh k i : Nat) (hk : k ≤ w) :
    ((y >>> sh) &&& BitVec.ofNat w (maxCount k)).toNat.testBit i = (decide (i < k) && y.getLsbD (sh + i)) := by
  rw [BitVec.testBit_toNat, BitVec.getLsbD_and, BitVec.getLsbD_ushiftRight, BitVec.getLsbD_ofNat, maxCount,
    Nat.testBit_two_pow_sub_one]
  by_cases h : i < k
  · simp [h, Nat.lt_of_lt_of_le h hk]
  · simp [h]

/-- A bit after the clear-then-set of a field. -/
theorem getLsbD_clear_set {w : Nat} (y : BitVec w) (sh k v j : Nat) (hv : v < 2 ^ k) (hk : sh + k ≤ w) (hj : j < w) :
    ((y &&& ~~~(BitVec.ofNat w (maxCount k) <<< sh)) ||| (BitVec.ofNat w v <<< sh)).getLsbD j =
      if sh ≤ j ∧ j < sh + k then v.testBit (j - sh) else y.getLsbD j := by
  rw [BitVec.getLsbD_or, BitVec.getLsbD_and, BitVec.getLsbD_not, BitVec.getLsbD_shiftLeft, BitVec.getLsbD_shiftLeft,
    BitVec.getLsbD_ofNat, BitVec.getLsbD_ofNat, maxCount, Nat.testBit_two_pow_sub_one]
  by_cases h1 : sh ≤ j
  · by_cases h2 : j < sh + k
    · have h3 : j - sh < w := by omega
      have h4 : j - sh < k := by omega
      have h5 : ¬ j < sh := by omega
      simp [h1, h2, h3, h4, h5, hj]
    · have h4 : ¬ j - sh < k := by omega
      have h6 : v.testBit (j - sh) = false := testBit_of_le hv (by omega)
      simp [h2, h4, h6, hj]
  · have h5 : j < sh := by omega
    simp [h1, h5, hj]

theorem getLsbD_window (m : Memory) (a j : Nat) :
    (m.readWindow a).getLsbD j = if j < 8 then (m.read (a + 1)).getLsbD j else (m.read a).getLsbD (j - 8) := by
  rw [Memory.readWindow, BitVec.getLsbD_append]

theorem straddles_iff {e k : Nat} : straddles e k = true ↔ 8 < e * k % 8 + k := by
  rw [straddles, decide_eq_true_eq, bitOffset]

theorem fieldShift_straddling {e k : Nat} (h : straddles e k = true) : fieldShift e k = 16 - e * k % 8 - k := by
  rw [fieldShift, if_pos h, bitOffset]

theorem fieldShift_within {e k : Nat} (h : ¬ straddles e k = true) : fieldShift e k = 8 - e * k % 8 - k := by
  rw [fieldShift, if_neg h, bitOffset]

theorem readField_straddling {e k : Nat} (h : straddles e k = true) (m : Memory) : readField m k e =
    ((m.readWindow (e * k / 8) >>> (16 - e * k % 8 - k)) &&& BitVec.ofNat 16 (maxCount k)).toNat := by
  rw [readField, if_pos h, fieldShift_straddling h, byteIndex]

theorem readField_within {e k : Nat} (h : ¬ straddles e k = true) (m : Memory) : readField m k e =
    ((m.read (e * k / 8) >>> (8 - e * k % 8 - k)) &&& BitVec.ofNat 8 (maxCount k)).toNat := by
  rw [readField, if_neg h, fieldShift_within h, byteIndex]

theorem writeField_straddling {e k : Nat} (h : straddles e k = true) (m : Memory) (v : Nat) : writeField m k e v =
    m.writeWindow (e * k / 8) ((m.readWindow (e * k / 8) &&& ~~~(BitVec.ofNat 16 (maxCount k) <<< (16 - e * k % 8 - k)))
      ||| (BitVec.ofNat 16 v <<< (16 - e * k % 8 - k))) := by
  rw [writeField, if_pos h, fieldShift_straddling h, byteIndex]

theorem writeField_within {e k : Nat} (h : ¬ straddles e k = true) (m : Memory) (v : Nat) : writeField m k e v =
    m.write (e * k / 8) ((m.read (e * k / 8) &&& ~~~(BitVec.ofNat 8 (maxCount k) <<< (8 - e * k % 8 - k)))
      ||| (BitVec.ofNat 8 v <<< (8 - e * k % 8 - k))) := by
  rw [writeField, if_neg h, fieldShift_within h, byteIndex]

/-! ### The read -/

/-- The bits of a field read: stream bit `e * k` is the most significant (20_memory.md R31, R37). -/
theorem readField_testBit (m : Memory) {k : Nat} (hk : k ≤ 8) (e i : Nat) :
    (readField m k e).testBit i = (decide (i < k) && m.streamBit (e * k + (k - 1 - i))) := by
  by_cases hs : straddles e k = true
  · rw [readField_straddling hs, testBit_masked _ _ _ _ (by omega), getLsbD_window]
    rw [straddles_iff] at hs
    by_cases hi : i < k
    · rw [Memory.streamBit]
      by_cases h8 : 16 - e * k % 8 - k + i < 8
      · rw [if_pos h8, show (e * k + (k - 1 - i)) / 8 = e * k / 8 + 1 by omega,
          show 7 - (e * k + (k - 1 - i)) % 8 = 16 - e * k % 8 - k + i by omega]
      · rw [if_neg h8, show (e * k + (k - 1 - i)) / 8 = e * k / 8 by omega,
          show 7 - (e * k + (k - 1 - i)) % 8 = 16 - e * k % 8 - k + i - 8 by omega]
    · simp [hi]
  · rw [readField_within hs, testBit_masked _ _ _ _ hk]
    rw [straddles_iff] at hs
    by_cases hi : i < k
    · rw [Memory.streamBit, show (e * k + (k - 1 - i)) / 8 = e * k / 8 by omega,
        show 7 - (e * k + (k - 1 - i)) % 8 = 8 - e * k % 8 - k + i by omega]
    · simp [hi]

/-- A field read is below `2^k` (10_state.md R17). -/
theorem readField_lt (m : Memory) {k : Nat} (hk : k ≤ 8) (e : Nat) : readField m k e < 2 ^ k := by
  refine Nat.lt_pow_two_of_testBit _ fun i hi => ?_
  rw [readField_testBit m hk]
  simp [Nat.not_lt.2 hi]

/-- A field reads as `v` exactly when its stream bits are the digits of `v`. -/
theorem readField_eq {m : Memory} {k e v : Nat} (hk : k ≤ 8) (hv : v < 2 ^ k)
    (h : ∀ i, i < k → m.streamBit (e * k + (k - 1 - i)) = v.testBit i) : readField m k e = v := by
  refine eq_of_testBit_lt (readField_lt m hk e) hv fun i hi => ?_
  rw [readField_testBit m hk, ← h i hi]
  simp [hi]

/-- Two buffers whose stream bits in a field agree hold the same number there. -/
theorem readField_congr {m m' : Memory} {k e : Nat} (hk : k ≤ 8)
    (h : ∀ s, e * k ≤ s → s < e * k + k → m.streamBit s = m'.streamBit s) : readField m k e = readField m' k e := by
  refine eq_of_testBit_lt (readField_lt m hk e) (readField_lt m' hk e) fun i hi => ?_
  rw [readField_testBit m hk, readField_testBit m' hk, h _ (by omega) (by omega)]

/-! ### The write -/

theorem wf_writeField {m : Memory} (h : m.wf = true) (k e v : Nat) : (writeField m k e v).wf = true := by
  by_cases hs : straddles e k = true
  · rw [writeField_straddling hs]
    exact Memory.wf_writeWindow h _ _
  · rw [writeField_within hs]
    exact Memory.wf_write h _ _

/-- The bytes a field write does not touch (20_memory.md R39 (c)). -/
theorem read_writeField_other {m : Memory} (h : m.wf = true) (k e v : Nat) {b : Nat} (h1 : b ≠ byteIndex e k)
    (h2 : straddles e k = true → b ≠ byteIndex e k + 1) : (writeField m k e v).read b = m.read b := by
  rw [byteIndex] at h1 h2
  by_cases hs : straddles e k = true
  · rw [writeField_straddling hs, Memory.read_writeWindow h, if_neg h1, if_neg (h2 hs)]
  · rw [writeField_within hs, Memory.read_write h, if_neg h1]

/-- A field write stays below the end of the buffer when the field does. -/
theorem below_writeField {m : Memory} {c k e : Nat} (h : m.below c = true) (hk : 0 < k) (he : e * k + k ≤ c * 8)
    (v : Nat) : (writeField m k e v).below c = true := by
  by_cases hs : straddles e k = true
  · rw [writeField_straddling hs]
    rw [straddles_iff] at hs
    exact Memory.below_writeWindow (by omega) h _
  · rw [writeField_within hs]
    exact Memory.below_write (by omega) h

/-- The stream after a field write: the field's bits are the digits of the value, every other bit is as it was
(20_memory.md R38, R39). -/
theorem writeField_streamBit {m : Memory} (h : m.wf = true) {k e v : Nat} (hk0 : 0 < k) (hk : k ≤ 8) (hv : v < 2 ^ k)
    (s : Nat) : (writeField m k e v).streamBit s =
      if e * k ≤ s ∧ s < e * k + k then v.testBit (e * k + k - 1 - s) else m.streamBit s := by
  by_cases hs : straddles e k = true
  · rw [writeField_straddling hs, Memory.streamBit, Memory.read_writeWindow h]
    rw [straddles_iff] at hs
    by_cases ha : s / 8 = e * k / 8
    · rw [if_pos ha, BitVec.getLsbD_extractLsb', getLsbD_clear_set _ _ _ _ _ hv (by omega) (by omega)]
      by_cases hf : e * k ≤ s ∧ s < e * k + k
      · rw [if_pos hf, if_pos (by omega), show 8 + (7 - s % 8) - (16 - e * k % 8 - k) = e * k + k - 1 - s by omega]
        simp; omega
      · rw [if_neg hf, if_neg (by omega), getLsbD_window, if_neg (by omega), Memory.streamBit, ha,
          show 8 + (7 - s % 8) - 8 = 7 - s % 8 by omega]
        simp; omega
    · rw [if_neg ha]
      by_cases ha' : s / 8 = e * k / 8 + 1
      · rw [if_pos ha', BitVec.getLsbD_extractLsb', getLsbD_clear_set _ _ _ _ _ hv (by omega) (by omega)]
        by_cases hf : e * k ≤ s ∧ s < e * k + k
        · rw [if_pos hf, if_pos (by omega), show 0 + (7 - s % 8) - (16 - e * k % 8 - k) = e * k + k - 1 - s by omega]
          simp; omega
        · rw [if_neg hf, if_neg (by omega), getLsbD_window, if_pos (by omega), Memory.streamBit, ha',
            show 0 + (7 - s % 8) = 7 - s % 8 by omega]
          simp; omega
      · rw [if_neg ha', if_neg (by omega), Memory.streamBit]
  · rw [writeField_within hs, Memory.streamBit, Memory.read_write h]
    rw [straddles_iff] at hs
    by_cases ha : s / 8 = e * k / 8
    · rw [if_pos ha, getLsbD_clear_set _ _ _ _ _ hv (by omega) (by omega)]
      by_cases hf : e * k ≤ s ∧ s < e * k + k
      · rw [if_pos hf, if_pos (by omega), show 7 - s % 8 - (8 - e * k % 8 - k) = e * k + k - 1 - s by omega]
      · rw [if_neg hf, if_neg (by omega), Memory.streamBit, ha]
    · rw [if_neg ha, if_neg (by omega), Memory.streamBit]

/-! ### The stream decides the bytes -/

/-- A byte is its eight stream bits (20_memory.md R35). -/
theorem read_eq_of_streamBit {m m' : Memory} {b : Nat}
    (h : ∀ s, b * 8 ≤ s → s < b * 8 + 8 → m.streamBit s = m'.streamBit s) : m.read b = m'.read b := by
  refine BitVec.eq_of_getLsbD_eq fun i hi => ?_
  have := h (b * 8 + (7 - i)) (by omega) (by omega)
  rwa [Memory.streamBit, Memory.streamBit, show (b * 8 + (7 - i)) / 8 = b by omega,
    show 7 - (b * 8 + (7 - i)) % 8 = i by omega] at this

/-- Two buffers in canonical form with equal streams are equal. -/
theorem Memory.ext_stream {m m' : Memory} (h : m.wf = true) (h' : m'.wf = true)
    (hs : ∀ s, m.streamBit s = m'.streamBit s) : m = m' :=
  Memory.ext h h' fun _ => read_eq_of_streamBit fun s _ _ => hs s

@[simp] theorem streamBit_zeroFilled (s : Nat) : Memory.zeroFilled.streamBit s = false := by simp [Memory.streamBit]

end Sys2Proof.Machine
end

