-- ==== Sys2Proof/Laws/Multiset.lean ====
section
/-! SUPPORT. The laws of what an occupied bank holds: its invariant (10_state.md R16), the bounds of its fields
(20_memory.md R34), what `PutField`, the increment and the loops of the set operators do to it. -/

namespace Sys2Proof.Machine

/-! ### The invariant, clause by clause -/

theorem wf_iff {c : Config} {p : PackedMultiset} : p.wf c = true ↔
    (1 ≤ p.k.toNat ∧ p.k.toNat ≤ 8) ∧ (p.bc.toNat = bucketsCount p.n.toNat p.k.toNat ∧ p.bc.toNat ≤ c.bmax)
      ∧ p.buckets.wf = true ∧ p.buckets.below p.bc.toNat = true := by
  rw [PackedMultiset.wf]
  simp only [Bool.and_eq_true, decide_eq_true_eq]
  simp only [kMin, kMax]
  tauto

theorem wf_k_pos {c : Config} {p : PackedMultiset} (h : p.wf c = true) : 0 < p.k.toNat := (wf_iff.1 h).1.1
theorem wf_k_le {c : Config} {p : PackedMultiset} (h : p.wf c = true) : p.k.toNat ≤ 8 := (wf_iff.1 h).1.2
theorem wf_bc {c : Config} {p : PackedMultiset} (h : p.wf c = true) :
    p.bc.toNat = bucketsCount p.n.toNat p.k.toNat := (wf_iff.1 h).2.1.1
theorem wf_bc_le {c : Config} {p : PackedMultiset} (h : p.wf c = true) : p.bc.toNat ≤ c.bmax := (wf_iff.1 h).2.1.2
theorem wf_buckets {c : Config} {p : PackedMultiset} (h : p.wf c = true) : p.buckets.wf = true := (wf_iff.1 h).2.2.1
theorem wf_below {c : Config} {p : PackedMultiset} (h : p.wf c = true) : p.buckets.below p.bc.toNat = true :=
  (wf_iff.1 h).2.2.2

/-! ### Sizes -/

/-- The bytes of a buffer hold the fields, with at most 7 bits left over (00_scope.md R8, 10_state.md R16 (e)). -/
theorem bucketsCount_bits (n k : Nat) :
    (n + 1) * k ≤ bucketsCount n k * 8 ∧ bucketsCount n k * 8 ≤ (n + 1) * k + 7 := by
  rw [bucketsCount]
  omega

/-- The greatest buffer (00_scope.md R8). -/
theorem bucketsCount_le_limit {n k : Nat} (hn : n ≤ 65535) (hk : k ≤ 8) : bucketsCount n k ≤ 65536 := by
  have : (n + 1) * k ≤ 65536 * 8 := Nat.mul_le_mul (by omega) hk
  rw [bucketsCount]
  omega

/-- Both sizes no greater, the buffer no greater (42_set_operators.md R100). -/
theorem bucketsCount_mono {n n' k k' : Nat} (hn : n ≤ n') (hk : k ≤ k') : bucketsCount n k ≤ bucketsCount n' k' := by
  have : (n + 1) * k ≤ (n' + 1) * k' := Nat.mul_le_mul (by omega) hk
  rw [bucketsCount, bucketsCount]
  omega

/-- The field of an element ends where the next begins. -/
theorem field_le {e n k : Nat} (h : e ≤ n) : e * k + k ≤ (n + 1) * k := by
  rw [← Nat.succ_mul]
  exact Nat.mul_le_mul (by omega) (Nat.le_refl k)

/-- The fields of two elements share no bit (20_memory.md R31). -/
theorem fields_disjoint {e e' k s : Nat} (h : e ≠ e') (hs : e * k ≤ s ∧ s < e * k + k)
    (hs' : e' * k ≤ s ∧ s < e' * k + k) : False := by
  rcases Nat.lt_or_gt_of_ne h with hl | hl
  · have : e * k + k ≤ e' * k := by
      rw [← Nat.succ_mul]
      exact Nat.mul_le_mul hl (Nat.le_refl k)
    omega
  · have : e' * k + k ≤ e * k := by
      rw [← Nat.succ_mul]
      exact Nat.mul_le_mul hl (Nat.le_refl k)
    omega

/-- The field of an element of the domain lies in the buffer (20_memory.md R34). -/
theorem field_in_buffer {c : Config} {p : PackedMultiset} (h : p.wf c = true) {e : Nat} (he : e ≤ p.n.toNat) :
    e * p.k.toNat + p.k.toNat ≤ p.bc.toNat * 8 := by
  have := bucketsCount_bits p.n.toNat p.k.toNat
  have := field_le (k := p.k.toNat) he
  rw [wf_bc h]
  omega

/-! ### PutField -/

@[simp] theorem putField_n (p : PackedMultiset) (e v : Nat) : (p.putField e v).n = p.n := rfl
@[simp] theorem putField_k (p : PackedMultiset) (e v : Nat) : (p.putField e v).k = p.k := rfl
@[simp] theorem putField_bc (p : PackedMultiset) (e v : Nat) : (p.putField e v).bc = p.bc := rfl

theorem putField_wf {c : Config} {p : PackedMultiset} (h : p.wf c = true) {e : Nat} (he : e ≤ p.n.toNat) (v : Nat) :
    (p.putField e v).wf c = true := by
  have hk := wf_iff.1 h
  exact wf_iff.2 ⟨hk.1, hk.2.1, wf_writeField hk.2.2.1 _ _ _,
    below_writeField hk.2.2.2 hk.1.1 (field_in_buffer h he) v⟩

/-- The whole effect of `PutField` on the stream (20_memory.md R38). -/
theorem putField_streamBit {c : Config} {p : PackedMultiset} (h : p.wf c = true) {e v : Nat} (hv : v < 2 ^ p.k.toNat)
    (s : Nat) : (p.putField e v).buckets.streamBit s =
      if e * p.k.toNat ≤ s ∧ s < e * p.k.toNat + p.k.toNat then v.testBit (e * p.k.toNat + p.k.toNat - 1 - s)
      else p.buckets.streamBit s :=
  writeField_streamBit (wf_buckets h) (wf_k_pos h) (wf_k_le h) hv s

theorem countRaw_lt {c : Config} {p : PackedMultiset} (h : p.wf c = true) (e : Nat) : p.countRaw e < 2 ^ p.k.toNat :=
  readField_lt _ (wf_k_le h) e

/-- Two multisets with one counter width whose streams agree in a field count it alike. -/
theorem countRaw_congr {c : Config} {p q : PackedMultiset} (h : p.wf c = true) (hk : q.k = p.k) {e : Nat}
    (hs : ∀ s, e * p.k.toNat ≤ s → s < e * p.k.toNat + p.k.toNat → q.buckets.streamBit s = p.buckets.streamBit s) :
    q.countRaw e = p.countRaw e := by
  rw [PackedMultiset.countRaw, PackedMultiset.countRaw, hk]
  exact readField_congr (wf_k_le h) hs

/-! ### The increment -/

/-- The whole effect of the body of INC: nothing, or one field write (41_counter_access.md R81). -/
theorem increment_cases (p : PackedMultiset) (e : Nat) :
    (p.increment e = p ∧ (p.n.toNat < e ∨ p.countRaw e = maxCount p.k.toNat)) ∨
    (p.increment e = p.putField e (p.countRaw e + 1) ∧ e ≤ p.n.toNat ∧ p.countRaw e ≠ maxCount p.k.toNat) := by
  rw [PackedMultiset.increment]
  split_ifs with h1 h2
  · exact .inl ⟨rfl, .inl h1⟩
  · exact .inl ⟨rfl, .inr h2⟩
  · exact .inr ⟨rfl, Nat.not_lt.1 h1, h2⟩

@[simp] theorem increment_n (p : PackedMultiset) (e : Nat) : (p.increment e).n = p.n := by
  rcases increment_cases p e with ⟨h, -⟩ | ⟨h, -⟩ <;> rw [h]; rfl
@[simp] theorem increment_k (p : PackedMultiset) (e : Nat) : (p.increment e).k = p.k := by
  rcases increment_cases p e with ⟨h, -⟩ | ⟨h, -⟩ <;> rw [h]; rfl
@[simp] theorem increment_bc (p : PackedMultiset) (e : Nat) : (p.increment e).bc = p.bc := by
  rcases increment_cases p e with ⟨h, -⟩ | ⟨h, -⟩ <;> rw [h]; rfl

theorem increment_wf {c : Config} {p : PackedMultiset} (h : p.wf c = true) (e : Nat) : (p.increment e).wf c = true := by
  rcases increment_cases p e with ⟨hi, -⟩ | ⟨hi, he, -⟩
  · rwa [hi]
  · rw [hi]
    exact putField_wf h he _

@[simp] theorem addOcc_n (p : PackedMultiset) (e m : Nat) : (p.addOcc e m).n = p.n := by
  induction m with
  | zero => rfl
  | succ m ih => simpa [PackedMultiset.addOcc] using ih
@[simp] theorem addOcc_k (p : PackedMultiset) (e m : Nat) : (p.addOcc e m).k = p.k := by
  induction m with
  | zero => rfl
  | succ m ih => simpa [PackedMultiset.addOcc] using ih
@[simp] theorem addOcc_bc (p : PackedMultiset) (e m : Nat) : (p.addOcc e m).bc = p.bc := by
  induction m with
  | zero => rfl
  | succ m ih => simpa [PackedMultiset.addOcc] using ih

theorem addOcc_wf {c : Config} {p : PackedMultiset} (h : p.wf c = true) (e m : Nat) : (p.addOcc e m).wf c = true := by
  induction m with
  | zero => exact h
  | succ m ih => exact increment_wf ih e

/-! ### A new instance and the loops -/

@[simp] theorem newInst_n (n : BitVec 16) (k : BitVec 4) : (newInst n k).n = n := rfl
@[simp] theorem newInst_k (n : BitVec 16) (k : BitVec 4) : (newInst n k).k = k := rfl
@[simp] theorem newInst_buckets (n : BitVec 16) (k : BitVec 4) : (newInst n k).buckets = Memory.zeroFilled := rfl

theorem newInst_bc {n : BitVec 16} {k : BitVec 4} (hk : k.toNat ≤ 8) :
    (newInst n k).bc.toNat = bucketsCount n.toNat k.toNat := by
  have := bucketsCount_le_limit (n := n.toNat) (by have := n.isLt; omega) hk
  rw [newInst, BitVec.toNat_ofNat, Nat.mod_eq_of_lt (by omega)]

theorem newInst_wf {c : Config} {n : BitVec 16} {k : BitVec 4} (h0 : 1 ≤ k.toNat) (hk : k.toNat ≤ 8)
    (hc : bucketsCount n.toNat k.toNat ≤ c.bmax) : (newInst n k).wf c = true :=
  wf_iff.2 ⟨⟨h0, hk⟩, ⟨newInst_bc hk, by rw [newInst_bc hk]; exact hc⟩, rfl, rfl⟩

@[simp] theorem newInst_countRaw (n : BitVec 16) {k : BitVec 4} (hk : k.toNat ≤ 8) (e : Nat) :
    (newInst n k).countRaw e = 0 :=
  readField_eq hk (Nat.two_pow_pos _) fun i _ => by simp

/-- What every turn of a loop keeps holds after it. -/
theorem forUp_keeps {β : Type} {P : β → Prop} {c : Nat} {f : Nat → β → β} {b : β} (h0 : P b)
    (hstep : ∀ i b, i < c → P b → P (f i b)) : P (forUp c f b) := by
  induction c with
  | zero => exact h0
  | succ c ih => exact hstep c _ (Nat.lt_succ_self c) (ih fun i b hi => hstep i b (by omega))

/-- An invariant that speaks of how many turns a loop has made holds after the last. -/
theorem forUp_induct {β : Type} {P : Nat → β → Prop} {c : Nat} {f : Nat → β → β} {b : β} (h0 : P 0 b)
    (hstep : ∀ i b, i < c → P i b → P (i + 1) (f i b)) : P c (forUp c f b) := by
  induction c with
  | zero => exact h0
  | succ c ih => exact hstep c _ (Nat.lt_succ_self c) (ih fun i b hi => hstep i b (by omega))

theorem minField_toNat {w : Nat} (x y : BitVec w) : (minField x y).toNat = min x.toNat y.toNat := by
  rw [minField]
  split_ifs with h
  · rw [Nat.min_eq_left h]
  · rw [Nat.min_eq_right (by omega)]

theorem minField_comm {w : Nat} (x y : BitVec w) : minField x y = minField y x :=
  BitVec.eq_of_toNat_eq (by rw [minField_toNat, minField_toNat, Nat.min_comm])

/-- The size fields of an intersection are those of a legal instance (42_set_operators.md R100). -/
theorem minField_wf {c : Config} {a b : PackedMultiset} (ha : a.wf c = true) (hb : b.wf c = true) :
    (newInst (minField a.n b.n) (minField a.k b.k)).wf c = true := by
  have h1 := wf_k_pos ha
  have h2 := wf_k_pos hb
  have h3 := wf_k_le ha
  have h4 := wf_bc_le ha
  rw [wf_bc ha] at h4
  refine newInst_wf ?_ ?_ (Nat.le_trans (bucketsCount_mono ?_ ?_) h4)
  all_goals rw [minField_toNat]
  all_goals omega

end Sys2Proof.Machine
end

