-- ==== Sys2Proof/Laws/Words.lean ====
section
/-! SUPPORT. The laws of the command word: its five fields and the word they make (30_encoding.md R52), bank numbers
and selectors in two bits. -/

namespace Sys2Proof

@[simp] theorem opField_packWord (op : BitVec 4) (rd ra : BitVec 2) (f8 : BitVec 8) (f16 : BitVec 16) :
    opField (packWord op rd ra f8 f16) = op := by
  refine BitVec.eq_of_getLsbD_eq fun i hi => ?_
  simp only [opField, packWord, BitVec.getLsbD_extractLsb', BitVec.getLsbD_append]
  rw [if_neg (by omega), if_neg (by omega), if_neg (by omega), if_neg (by omega),
    show 28 + i - 16 - 8 - 2 - 2 = i by omega]
  simp [hi]

@[simp] theorem rdField_packWord (op : BitVec 4) (rd ra : BitVec 2) (f8 : BitVec 8) (f16 : BitVec 16) :
    rdField (packWord op rd ra f8 f16) = rd := by
  refine BitVec.eq_of_getLsbD_eq fun i hi => ?_
  simp only [rdField, packWord, BitVec.getLsbD_extractLsb', BitVec.getLsbD_append]
  rw [if_neg (by omega), if_neg (by omega), if_neg (by omega), if_pos (by omega),
    show 26 + i - 16 - 8 - 2 = i by omega]
  simp [hi]

@[simp] theorem raField_packWord (op : BitVec 4) (rd ra : BitVec 2) (f8 : BitVec 8) (f16 : BitVec 16) :
    raField (packWord op rd ra f8 f16) = ra := by
  refine BitVec.eq_of_getLsbD_eq fun i hi => ?_
  simp only [raField, packWord, BitVec.getLsbD_extractLsb', BitVec.getLsbD_append]
  rw [if_neg (by omega), if_neg (by omega), if_pos (by omega), show 24 + i - 16 - 8 = i by omega]
  simp [hi]

@[simp] theorem f8Field_packWord (op : BitVec 4) (rd ra : BitVec 2) (f8 : BitVec 8) (f16 : BitVec 16) :
    f8Field (packWord op rd ra f8 f16) = f8 := by
  refine BitVec.eq_of_getLsbD_eq fun i hi => ?_
  simp only [f8Field, packWord, BitVec.getLsbD_extractLsb', BitVec.getLsbD_append]
  rw [if_neg (by omega), if_pos (by omega), show 16 + i - 16 = i by omega]
  simp [hi]

@[simp] theorem f16Field_packWord (op : BitVec 4) (rd ra : BitVec 2) (f8 : BitVec 8) (f16 : BitVec 16) :
    f16Field (packWord op rd ra f8 f16) = f16 := by
  refine BitVec.eq_of_getLsbD_eq fun i hi => ?_
  simp only [f16Field, packWord, BitVec.getLsbD_extractLsb', BitVec.getLsbD_append]
  rw [if_pos (by omega), show 0 + i = i by omega]
  simp [hi]

/-- `rb` and `sel` are the two low bits of `f8` (30_encoding.md R52). -/
theorem subField_eq (w : Word) : subField w = (f8Field w).extractLsb' 0 2 := by
  refine BitVec.eq_of_getLsbD_eq fun i hi => ?_
  simp only [subField, f8Field, BitVec.getLsbD_extractLsb']
  simp [hi]
  omega

@[simp] theorem subField_packWord (op : BitVec 4) (rd ra v : BitVec 2) (f16 : BitVec 16) :
    subField (packWord op rd ra (subImm v) f16) = v := by
  rw [subField_eq, f8Field_packWord, subImm]
  exact BitVec.extractLsb'_append_eq_right

/-- A word is its five fields (30_encoding.md R52). -/
theorem packWord_fields (w : Word) : packWord (opField w) (rdField w) (raField w) (f8Field w) (f16Field w) = w := by
  refine BitVec.eq_of_getLsbD_eq fun i hi => ?_
  simp only [packWord, opField, rdField, raField, f8Field, f16Field, BitVec.getLsbD_append,
    BitVec.getLsbD_extractLsb']
  by_cases h1 : i < 16
  · rw [if_pos h1]
    simp [h1]
  rw [if_neg h1]
  by_cases h2 : i - 16 < 8
  · rw [if_pos h2, show 16 + (i - 16) = i by omega]
    simp [h2]
  rw [if_neg h2]
  by_cases h3 : i - 16 - 8 < 2
  · rw [if_pos h3, show 24 + (i - 16 - 8) = i by omega]
    simp [h3]
  rw [if_neg h3]
  by_cases h4 : i - 16 - 8 - 2 < 2
  · rw [if_pos h4, show 26 + (i - 16 - 8 - 2) = i by omega]
    simp [h4]
  rw [if_neg h4, show 28 + (i - 16 - 8 - 2 - 2) = i by omega]
  simp
  omega

/-- Masking a word is masking its fields. -/
theorem packWord_and (op op' : BitVec 4) (rd rd' ra ra' : BitVec 2) (f8 f8' : BitVec 8) (f16 f16' : BitVec 16) :
    packWord op rd ra f8 f16 &&& packWord op' rd' ra' f8' f16' =
      packWord (op &&& op') (rd &&& rd') (ra &&& ra') (f8 &&& f8') (f16 &&& f16') := by
  have h : (op ++ rd ++ ra ++ f8 ++ f16) &&& (op' ++ rd' ++ ra' ++ f8' ++ f16') =
      (op &&& op') ++ (rd &&& rd') ++ (ra &&& ra') ++ (f8 &&& f8') ++ (f16 &&& f16') := by
    simp only [BitVec.and_append]
  exact h

@[simp] theorem BankId.ofBits_bits (i : BankId) : BankId.ofBits i.bits = i := by cases i <;> rfl
@[simp] theorem InfoSel.ofBits_bits (q : InfoSel) : InfoSel.ofBits q.bits = q := by cases q <;> rfl

theorem BankId.bits_ofBits (v : BitVec 2) : (BankId.ofBits v).bits = v := by revert v; decide
theorem InfoSel.bits_ofBits (v : BitVec 2) : (InfoSel.ofBits v).bits = v := by revert v; decide

end Sys2Proof
end

