-- ==== Sys2Proof/Laws/PerInstr.lean ====
section
/-! SUPPORT. What holds of every command as syntax, one lemma per constructor: its word matches its row of the table of
30_encoding.md R54, and its operands are in the ranges of R63. -/

namespace Sys2Proof.Laws.EncodeMatches

/-- `encode i & mask = match` for the row of `i` (30_encoding.md R54). -/
def Statement (i : Instr) : Prop := i.row.accepts (encode i) = true

/-- A word made of fields matches a row when its masked fields make the row's pattern. -/
theorem of_fields {r : EncRow} {op m0 : BitVec 4} {rd ra m1 m2 : BitVec 2} {f8 m3 : BitVec 8} {f16 m4 : BitVec 16}
    (hm : r.mask = packWord m0 m1 m2 m3 m4)
    (hb : packWord (op &&& m0) (rd &&& m1) (ra &&& m2) (f8 &&& m3) (f16 &&& m4) = r.bits) :
    r.accepts (packWord op rd ra f8 f16) = true := by
  rw [EncRow.accepts, hm, packWord_and, hb, beq_self_eq_true]

theorem subImm_masked (v : BitVec 2) : subImm v &&& 0xFC#8 = 0#8 := by revert v; decide

theorem create (rd : BankId) (k : BitVec 8) (n : BitVec 16) : Statement (.create rd k n) :=
  of_fields (m0 := 0xF#4) (m1 := 0#2) (m2 := 3#2) (m3 := 0#8) (m4 := 0#16) rfl (by
    rw [BitVec.and_zero, BitVec.and_zero, BitVec.and_zero]; rfl)

theorem free (rd : BankId) : Statement (.free rd) := by cases rd <;> rfl

theorem copy (rd ra : BankId) : Statement (.copy rd ra) := by cases rd <;> cases ra <;> rfl

theorem info (ra : BankId) (sel : InfoSel) : Statement (.info ra sel) := by cases ra <;> cases sel <;> rfl

theorem count (ra : BankId) (e : BitVec 16) : Statement (.count ra e) :=
  of_fields (m0 := 0xF#4) (m1 := 3#2) (m2 := 0#2) (m3 := 0xFF#8) (m4 := 0#16) rfl (by
    rw [BitVec.and_zero, BitVec.and_zero]; rfl)

theorem inc (rd : BankId) (e : BitVec 16) : Statement (.inc rd e) :=
  of_fields (m0 := 0xF#4) (m1 := 0#2) (m2 := 3#2) (m3 := 0xFF#8) (m4 := 0#16) rfl (by
    rw [BitVec.and_zero, BitVec.and_zero]; rfl)

theorem compl (rd ra : BankId) : Statement (.compl rd ra) := by cases rd <;> cases ra <;> rfl

theorem isect (rd ra rb : BankId) : Statement (.isect rd ra rb) := by cases rd <;> cases ra <;> cases rb <;> rfl

theorem isectl (rd ra rb : BankId) : Statement (.isectl rd ra rb) := by cases rd <;> cases ra <;> cases rb <;> rfl

theorem diff (rd ra rb : BankId) : Statement (.diff rd ra rb) := by cases rd <;> cases ra <;> cases rb <;> rfl

theorem rdb (ra : BankId) (idx : BitVec 16) : Statement (.rdb ra idx) :=
  of_fields (m0 := 0xF#4) (m1 := 3#2) (m2 := 0#2) (m3 := 0xFF#8) (m4 := 0#16) rfl (by
    rw [BitVec.and_zero, BitVec.and_zero]; rfl)

theorem wrb (rd : BankId) (idx : BitVec 16) (byte : Byte) : Statement (.wrb rd idx byte) :=
  of_fields (m0 := 0xF#4) (m1 := 0#2) (m2 := 3#2) (m3 := 0#8) (m4 := 0#16) rfl (by
    rw [BitVec.and_zero, BitVec.and_zero, BitVec.and_zero]; rfl)

end Sys2Proof.Laws.EncodeMatches

namespace Sys2Proof.Laws.OperandsInRange

/-- The command prints to an assembler line whose operands are in range (30_encoding.md R63). -/
def Statement (i : Instr) : Prop := i.wf = true

theorem bank (i : BankId) : bankInRange i.num = true := by cases i <;> rfl
theorem sel (q : InfoSel) : selInRange q.num = true := by cases q <;> rfl
theorem imm8 (v : BitVec 8) : imm8InRange v.toNat = true := decide_eq_true v.isLt
theorem imm16 (v : BitVec 16) : imm16InRange v.toNat = true := decide_eq_true v.isLt

theorem create (rd : BankId) (k : BitVec 8) (n : BitVec 16) : Statement (.create rd k n) := by
  simp [Statement, Instr.wf, Instr.toAsm, Asm.wf, bank, imm8, imm16]
theorem free (rd : BankId) : Statement (.free rd) := by simp [Statement, Instr.wf, Instr.toAsm, Asm.wf, bank]
theorem copy (rd ra : BankId) : Statement (.copy rd ra) := by simp [Statement, Instr.wf, Instr.toAsm, Asm.wf, bank]
theorem info (ra : BankId) (q : InfoSel) : Statement (.info ra q) := by
  simp [Statement, Instr.wf, Instr.toAsm, Asm.wf, bank, sel]
theorem count (ra : BankId) (e : BitVec 16) : Statement (.count ra e) := by
  simp [Statement, Instr.wf, Instr.toAsm, Asm.wf, bank, imm16]
theorem inc (rd : BankId) (e : BitVec 16) : Statement (.inc rd e) := by
  simp [Statement, Instr.wf, Instr.toAsm, Asm.wf, bank, imm16]
theorem compl (rd ra : BankId) : Statement (.compl rd ra) := by simp [Statement, Instr.wf, Instr.toAsm, Asm.wf, bank]
theorem isect (rd ra rb : BankId) : Statement (.isect rd ra rb) := by
  simp [Statement, Instr.wf, Instr.toAsm, Asm.wf, bank]
theorem isectl (rd ra rb : BankId) : Statement (.isectl rd ra rb) := by
  simp [Statement, Instr.wf, Instr.toAsm, Asm.wf, bank]
theorem diff (rd ra rb : BankId) : Statement (.diff rd ra rb) := by
  simp [Statement, Instr.wf, Instr.toAsm, Asm.wf, bank]
theorem rdb (ra : BankId) (idx : BitVec 16) : Statement (.rdb ra idx) := by
  simp [Statement, Instr.wf, Instr.toAsm, Asm.wf, bank, imm16]
theorem wrb (rd : BankId) (idx : BitVec 16) (byte : Byte) : Statement (.wrb rd idx byte) := by
  simp [Statement, Instr.wf, Instr.toAsm, Asm.wf, bank, imm16, imm8]

end Sys2Proof.Laws.OperandsInRange
end

