-- ==== Sys2Proof/Laws/Run.lean ====
section
/-! SUPPORT. Runs of several steps, one step at a time. -/

namespace Sys2Proof.Machine

/-- A run that starts with a step that answers a next state goes on from there. -/
theorem run_next {s t : State} (h : step s = .next t) (m : Nat) :
    Host.Core.run core (m + 1) s = Host.Core.run core m t := by
  have h' : core.step s = .next t := h
  simp only [Host.Core.run, h']

end Sys2Proof.Machine
end

