-- ==== Sys2Proof/Tests/Slice0.lean ====
section
/-! SUPPORT. Tests. Expected results come from spec/: the words of 30_encoding.md and the vectors of
95_test_vectors.md, by their ids. The last part shows, for every statement of the certificate that has hypotheses, a
state and operands that meet them together. -/

namespace Sys2Proof.Tests

open Sys2Proof.Machine

/-! ### Ill-formed lines, one for each check of WellFormed -/

theorem test_bank_four_refused : (Asm.free 4).wf = false := by decide
theorem test_source_bank_four_refused : (Asm.isect 0 1 4).wf = false := by decide
theorem test_selector_four_refused : (Asm.info 0 4).wf = false := by decide
theorem test_width_256_refused : (Asm.create 0 256 0).wf = false := by decide
theorem test_byte_256_refused : (Asm.wrb 0 0 256).wf = false := by decide
theorem test_index_65536_refused : (Asm.count 0 65536).wf = false := by decide
theorem test_greatest_operands_accepted : (Asm.wrb 3 65535 255).wf = true := by decide

/-! ### Decoding: the fields of 30_encoding.md R52 and R54 written bit by bit: op, rd, ra, the byte, the half-word -/

/-- `CREATE b3, 200, 40000`. -/
theorem test_decode_create :
    decode 0b0001_11_00_11001000_1001110001000000#32 = .ok (.create .b3 200#8 40000#16) := by decide
/-- `FREE b2`. -/
theorem test_decode_free : decode 0b0010_10_00_00000000_0000000000000000#32 = .ok (.free .b2) := by decide
/-- `COPY b1, b2`. -/
theorem test_decode_copy : decode 0b0011_01_10_00000000_0000000000000000#32 = .ok (.copy .b1 .b2) := by decide
/-- `INFO b3, BC`. -/
theorem test_decode_info : decode 0b0100_00_11_00000010_0000000000000000#32 = .ok (.info .b3 .bc) := by decide
/-- `COUNT b2, 513`. -/
theorem test_decode_count : decode 0b0101_00_10_00000000_0000001000000001#32 = .ok (.count .b2 513#16) := by decide
/-- `INC b1, 5` (30_encoding.md R64 gives its word, 0x64000005). -/
theorem test_decode_inc : decode 0b0110_01_00_00000000_0000000000000101#32 = .ok (.inc .b1 5#16) := by decide
/-- `COMPL b2, b1`. -/
theorem test_decode_compl : decode 0b0111_10_01_00000000_0000000000000000#32 = .ok (.compl .b2 .b1) := by decide
/-- `ISECT b2, b0, b1` (30_encoding.md R64 gives its word, 0x88010000). -/
theorem test_decode_isect : decode 0b1000_10_00_00000001_0000000000000000#32 = .ok (.isect .b2 .b0 .b1) := by decide
/-- `ISECTL b3, b1, b2`. -/
theorem test_decode_isectl : decode 0b1001_11_01_00000010_0000000000000000#32 = .ok (.isectl .b3 .b1 .b2) := by decide
/-- `DIFF b1, b3, b2`. -/
theorem test_decode_diff : decode 0b1010_01_11_00000010_0000000000000000#32 = .ok (.diff .b1 .b3 .b2) := by decide
/-- `RDB b3, 65535` (V52). -/
theorem test_decode_rdb : decode 0b1011_00_11_00000000_1111111111111111#32 = .ok (.rdb .b3 0xFFFF#16) := by decide
/-- `WRB b1, 2, 0xC0` (V53). -/
theorem test_decode_wrb : decode 0b1100_01_00_11000000_0000000000000010#32 = .ok (.wrb .b1 2#16 0xC0#8) := by decide

/-- V55 to V59: the reserved opcodes. That the decoder names this reason is the model's choice (log 15). -/
theorem test_reserved_opcodes : [0x00000000#32, 0xD0000000#32, 0xE0000000#32, 0xF0000000#32, 0xFFFFFFFF#32].all
    (fun w => decide (decode w = .error .reservedOpcode)) = true := by decide

/-- V60 to V80: one must-be-zero bit set, in every command of the table. That the decoder names this reason is the
model's choice (log 15). -/
theorem test_must_be_zero_bits : [0x11030014#32, 0x20000001#32, 0x21000000#32, 0x20010000#32, 0x30000001#32, 0x34800000#32,
    0x44000000#32, 0x40040000#32, 0x40000001#32, 0x54000005#32, 0x50010005#32, 0x61000005#32, 0x60800005#32, 0x74000001#32,
    0x88040000#32, 0x88010001#32, 0x98018000#32, 0xA8100000#32, 0xB4000002#32, 0xB0010002#32, 0xC1C00002#32].all
    (fun w => decide (decode w = .error .mustBeZeroBitSet)) = true := by decide

/-- V54: the word of `WRB b3, 65535, 255`. -/
theorem test_encode_wrb : encode (.wrb .b3 0xFFFF#16 255#8) = 0xCCFFFFFF#32 := by decide
/-- V53, with a comment (30_encoding.md R63). -/
theorem test_assemble_text : assembleText "WRB b1, 2, 0xC0 ; a comment".toList = some 0xC4C00002#32 := by decide

/-! ### One command on a small state -/

/-- What a bank holds, from its sizes and its bytes (the form `n, k, bc, buckets` of 95_test_vectors.md). -/
def holds (n k bc : Nat) (bytes : List Nat) : PackedMultiset where
  n := BitVec.ofNat 16 n
  k := BitVec.ofNat 4 k
  bc := BitVec.ofNat 17 bc
  buckets := Memory.tabulate bytes.length fun j => BitVec.ofNat 8 (bytes.getD j 0)

/-- The bank `a` of group H: counts 2 7 1 0 5 3. -/
def bankA : PackedMultiset := holds 5 3 3 [0x5C, 0x8A, 0xC0]
/-- The bank `b` of group H: counts 3 1 0 2. -/
def bankB : PackedMultiset := holds 3 2 1 [0xD2]

/-- The start of group J: `a` in b0, `b` in b1, the others empty. -/
def start : State := { State.reset with b0 := .occupied bankA, b1 := .occupied bankB }

/-- The state with one bank more. -/
def withB2 (p : PackedMultiset) : State := { start with b2 := .occupied p }

/-- Executes one word, and reads the response and one bank. -/
def after (s : State) (w : Word) (i : BankId) : Option (Response × Bank) :=
  match step (placeWord w s) with
  | .next t => (pendingResponse t).map fun r => (r, t.bank i)
  | .fault _ => none
  | .refused _ => none

/-- The response `(OK, d)`. -/
def ok (d : Nat) : Response := ⟨.ok, BitVec.ofNat 32 d⟩

/-- V137 on another bank: `CREATE b2, 3, 5`. -/
theorem test_create : after start 0x18030005#32 .b2 = some (ok 0, .occupied (holds 5 3 3 [0, 0, 0])) := by decide
/-- V110: `CREATE b2, 9, 65535`. -/
theorem test_create_width : after start 0x1809FFFF#32 .b2 = some (⟨.width, 0#32⟩, .empty) := by decide
/-- V131: `FREE b0`. -/
theorem test_free : after start 0x20000000#32 .b0 = some (ok 0, .empty) := by decide
/-- `FREE b2`, an empty bank: 60_exceptions.md R132. -/
theorem test_free_empty : after start 0x28000000#32 .b2 = some (⟨.noinst, 0#32⟩, .empty) := by decide
/-- `COPY b2, b0`: 40_lifecycle.md R72. -/
theorem test_copy : after start 0x38000000#32 .b2 = some (ok 0, .occupied bankA) := by decide
/-- V125: `COPY b1, b0`, the destination occupied. -/
theorem test_copy_busy : after start 0x34000000#32 .b1 = some (⟨.busy, 0#32⟩, .occupied bankB) := by decide
/-- `INFO b0, BC` of a bank with `n = 5`, `k = 3`: 00_scope.md R8. -/
theorem test_info_bc : after start 0x40020000#32 .b0 = some (ok 3, .occupied bankA) := by decide
/-- V263: `INFO b3, V` of an empty bank. -/
theorem test_info_valid_empty : after start 0x43030000#32 .b3 = some (ok 0, .empty) := by decide
/-- V237: `COUNT b0, 5`, a field that spans two bytes. -/
theorem test_count : after start 0x50000005#32 .b0 = some (ok 3, .occupied bankA) := by decide
/-- The least element outside the domain: `COUNT b0, 6` with `n = 5` (41_counter_access.md R80). -/
theorem test_count_range : after start 0x50000006#32 .b0 = some (⟨.range, 0#32⟩, .occupied bankA) := by decide
/-- V148 to V149: `INC b2, 1`, a field that spans two bytes between full neighbours, to its ceiling. -/
theorem test_inc_straddling : after (withB2 (holds 4 5 4 [0xFF, 0xBF, 0xFF, 0x80])) 0x68000001#32 .b2 =
    some (ok 0, .occupied (holds 4 5 4 [0xFF, 0xFF, 0xFF, 0x80])) := by decide
/-- V245: `INC b2, 4` leaves the padding bits alone. -/
theorem test_inc_padding : after (withB2 (holds 5 3 3 [0x5C, 0x8A, 0xFF])) 0x68000004#32 .b2 =
    some (ok 0, .occupied (holds 5 3 3 [0x5C, 0x8C, 0xFF])) := by decide
/-- V176, from the bank it complements: `COMPL b3, b2`. -/
theorem test_compl : after (withB2 (holds 5 3 3 [0xA3, 0x75, 0x3F])) 0x7E000000#32 .b3 = some (ok 0, .occupied bankA) := by
  decide
/-- V185: `COMPL b2, b2`, empty. -/
theorem test_compl_empty : after start 0x7A000000#32 .b2 = some (⟨.noinst, 0#32⟩, .empty) := by decide
/-- V196: `ISECT b2, b0, b1`. -/
theorem test_isect : after start 0x88010000#32 .b2 = some (ok 0, .occupied (holds 3 2 1 [0x90])) := by decide
/-- V209: `ISECT b0, b0, b1`. -/
theorem test_isect_busy : after start 0x80010000#32 .b0 = some (⟨.busy, 0#32⟩, .occupied bankA) := by decide
/-- V199: `ISECTL b3, b0, b1`, one index visited. -/
theorem test_isectl : after start 0x9C010000#32 .b3 = some (ok 0, .occupied (holds 3 2 1 [0x40])) := by decide
/-- V203: `ISECTL b3, b0, b0`, three indices visited of six elements. -/
theorem test_isectl_same : after start 0x9C000000#32 .b3 = some (ok 0, .occupied (holds 5 3 3 [0x24, 0x80, 0x00])) := by
  decide
/-- V218: `DIFF b2, b0, b1`, elements 4 and 5 beyond the domain of `b1`. -/
theorem test_diff : after start 0xA8010000#32 .b2 = some (ok 0, .occupied (holds 5 3 3 [0x18, 0x8A, 0xC0])) := by decide
/-- V260 with other banks: `DIFF b2, b3, b0`, the first source empty. -/
theorem test_diff_empty : after start 0xAB000000#32 .b2 = some (⟨.noinst, 0#32⟩, .empty) := by decide
/-- V238: `RDB b0, 2`. -/
theorem test_rdb : after start 0xB0000002#32 .b0 = some (ok 192, .occupied bankA) := by decide
/-- V239: `RDB b0, 3`, `idx = bc`. -/
theorem test_rdb_range : after start 0xB0000003#32 .b0 = some (⟨.range, 0#32⟩, .occupied bankA) := by decide
/-- V242: `WRB b0, 2, 0xFF`. -/
theorem test_wrb : after start 0xC0FF0002#32 .b0 = some (ok 0, .occupied (holds 5 3 3 [0x5C, 0x8A, 0xFF])) := by decide
/-- V240: `WRB b0, 3, 0xFF`, `idx = bc`. -/
theorem test_wrb_range : after start 0xC0FF0003#32 .b0 = some (⟨.range, 0#32⟩, .occupied bankA) := by decide
/-- V59: the all-one word. -/
theorem test_illegal : after start 0xFFFFFFFF#32 .b0 = some (⟨.illegal, 0#32⟩, .occupied bankA) := by decide

/-! ### States and operands that meet the hypotheses of the statements -/

/-- The banks of group J, with the port in a given state and given pins to come. -/
def facing (p : Port) (h : List HostPins) : State := { start with port := p, host := h }

/-- The pins of a host that presents a word. -/
def presents (w : Word) : HostPins := { quietPins with cmdValid := true, cmdWord := w }
/-- The pins of a host that takes a response. -/
def takes : HostPins := { quietPins with rspReady := true }
/-- The pins of a host that resets the block. -/
def resets : HostPins := { quietPins with rst := true }
/-- A machine whose banks hold one byte. -/
def tiny : State := { State.reset with cfg := { bmax := 1 } }

theorem witness_DecodeOfEncodeIsTheCommand : (Instr.wrb .b3 0xFFFF#16 0xFF#8).wf = true ∧ (Instr.free .b0).wf = true := by
  decide
theorem witness_EncodeOfDecodeIsTheWord : decode 0xCCFFFFFF#32 = .ok (.wrb .b3 0xFFFF#16 0xFF#8) := by decide
theorem witness_RowAcceptsExactlyItsCommand : rowWrb ∈ encodingTable ∧ rowWrb.accepts 0xCCFFFFFF#32 = true ∧
    rowFree.accepts 0x20000001#32 = false := by decide
theorem witness_NoTwoRowsAcceptOneWord : rowInc ∈ encodingTable ∧ rowInc.accepts 0x64000005#32 = true := by decide
theorem witness_IllegalWordsAreAnswered_reserved : illegalWord 0xD0000000#32 := .inl (by unfold reservedOp; decide)
theorem witness_IllegalWordsAreAnswered_mustBeZero : illegalWord 0x20000001#32 :=
  .inr ⟨rowFree, by decide, by decide, by decide⟩
theorem witness_AssembledWordIsTheEncoding : (Asm.wrb 3 65535 255).wf = true ∧ (Asm.wrb 3 65536 255).wf = false := by decide
theorem witness_StepRunsTheDecodedCommand : (sample (facing (.executing 0x60000005#32) [quietPins])).rst = false ∧
    decode 0x60000005#32 = .ok (.inc .b0 5#16) ∧ decode 0x61000005#32 = .error .mustBeZeroBitSet := by decide
theorem witness_PlacedWordRunsNext : decodeTableWord 32 0x60000005 = some (.inc .b0 5#16) ∧
    decodeTableWord 32 0xCCFFFFFF = some (.wrb .b3 0xFFFF#16 0xFF#8) := by decide
theorem witness_HandshakeFollowsTheProtocol_idle : (sample (facing .idle [presents 0x20000000#32])).rst = false ∧
    (sample (facing .idle [presents 0x20000000#32])).cmdValid = true ∧ (sample (facing .idle [])).rst = false ∧
    (sample (facing .idle [])).cmdValid = false := by decide
theorem witness_HandshakeFollowsTheProtocol_responding : (sample (facing (.responding (ok 7)) [takes])).rst = false ∧
    (sample (facing (.responding (ok 7)) [takes])).rspReady = true ∧
    (sample (facing (.responding (ok 7)) [])).rspReady = false := by decide
theorem witness_StatusCodeIsOnThePort : (facing (.responding (ok 7)) []).port = .responding (ok 7) ∧
    rspStatus (facing (.responding ⟨.range, 0#32⟩) []) = some 6#4 := by decide
theorem witness_EveryCommandIsAnswered_accepted : (facing (.executing 0#32) []).port = .executing 0#32 ∧
    (sample (facing (.executing 0#32) [])).rst = false := by decide
theorem witness_EveryCommandIsAnswered_held : ∃ t, step (facing (.responding (ok 7)) []) = .next t ∧
    t.port = .responding (ok 7) := ⟨_, rfl, rfl⟩
theorem witness_EveryCommandIsAnswered_new : ∃ t, step (facing (.executing 0x40030000#32) []) = .next t ∧
    t.port = .responding (ok 1) := ⟨_, rfl, rfl⟩
theorem witness_WholeTransaction : (facing .idle [presents 0x60000005#32, quietPins, takes]).host =
      presents 0x60000005#32 :: quietPins :: takes :: [] ∧
    (presents 0x60000005#32).rst = false ∧ (presents 0x60000005#32).cmdValid = true ∧ takes.rst = false ∧
    takes.rspReady = true ∧ quietPins.rst = false ∧
    decode (presents 0x60000005#32).cmdWord = .ok (.inc .b0 5#16) := by decide
theorem witness_ResetEmptiesTheBlock_one : 0 < (facing (.executing 0#32) [resets]).host.length ∧
    ∀ p ∈ (facing (.executing 0#32) [resets]).host.take 1, p.rst = true := by decide
theorem witness_ResetEmptiesTheBlock_two : 1 < (facing (.responding (ok 7)) [resets, resets, takes]).host.length ∧
    ∀ p ∈ (facing (.responding (ok 7)) [resets, resets, takes]).host.take 2, p.rst = true := by decide
theorem witness_StepKeepsTheInvariant : (placeWord 0x60000005#32 start).wf = true ∧
    ∃ t, step (placeWord 0x60000005#32 start) = .next t := ⟨by decide, _, rfl⟩
theorem witness_OccupiedBanksAgree : ({ bmax := 1 } : Config).wf = true ∧ ({ bmax := 65536 } : Config).wf = true ∧
    ∃ t : State, Host.Core.run core 2 { State.reset with cfg := { bmax := 1 }, host := [presents 0x10010000#32] } = .next t ∧
      t.bank .b0 = .occupied (newInst 0#16 1#4) := ⟨by decide, by decide, _, rfl, rfl⟩
theorem witness_SizesAreFixedWhileOccupied_step : ∃ t q, step (placeWord 0x60000005#32 start) = .next t ∧
    t.bank .b0 = .occupied q ∧ q ≠ bankA ∧ start.bank .b0 = .occupied bankA := ⟨_, _, rfl, rfl, by decide, rfl⟩
theorem witness_SizesAreFixedWhileOccupied_wrb : ∃ t q, exec (.wrb .b0 2#16 0xFF#8) start = .next t ∧
    t.bank .b0 = .occupied q ∧ q ≠ bankA := ⟨_, _, rfl, rfl, by decide⟩
theorem witness_CommandWritesOnlyItsDestination : (∃ t, exec (.copy .b3 .b0) start = .next t) ∧
    destination (.copy .b3 .b0) ≠ some .b2 := ⟨⟨_, rfl⟩, by decide⟩
theorem witness_DestinationIsNeverASource : start.bank .b0 = .occupied bankA ∧ start.bank .b2 = .empty ∧
    Instr.isect .b2 .b0 .b2 ∈ [Instr.copy .b2 .b2, .compl .b2 .b2, .isect .b2 .b2 .b0, .isect .b2 .b0 .b2,
      .isectl .b2 .b2 .b0, .isectl .b2 .b0 .b2, .diff .b2 .b2 .b0, .diff .b2 .b0 .b2] := by decide
theorem witness_ErrorsWriteNothing : runWord 0x34000000#32 start = .next (raise .busy start) ∧
    (raise .busy start).port = .responding ⟨.busy, 0#32⟩ ∧ runWord 0#32 start = .next (raise .illegal start) := ⟨rfl, rfl, rfl⟩
theorem witness_FailedCommandsLeaveTheState : start.port = .idle ∧
    issueAll [.copy .b1 .b0, .free .b2] start = some ([⟨.busy, 0#32⟩, ⟨.noinst, 0#32⟩], start) := by decide
theorem witness_OnlyNamedBanksMatter : (withB2 bankB).cfg = start.cfg ∧
    (∀ j ∈ namedBanks (.copy .b3 .b0), (withB2 bankB).bank j = start.bank j) ∧
    (∃ t, exec (.copy .b3 .b0) start = .next t) ∧ ∃ t, exec (.copy .b3 .b0) (withB2 bankB) = .next t :=
  ⟨rfl, by decide, ⟨_, rfl⟩, _, rfl⟩
theorem witness_EmptyBankIsRefused : start.bank .b2 = .empty ∧ InfoSel.bc ≠ .valid := by decide
theorem witness_OccupiedDestinationIsRefused : start.bank .b0 = .occupied bankA ∧ start.bank .b1 = .occupied bankB ∧
    Instr.diff .b0 .b0 .b1 ∈ [.create .b0 3#8 5#16, Instr.copy .b0 .b0, .compl .b0 .b0, .isect .b0 .b0 .b1,
      .isectl .b0 .b0 .b1, .diff .b0 .b0 .b1] ∧ exec (.diff .b0 .b0 .b1) start = .next (raise .busy start) :=
  ⟨rfl, rfl, by decide, rfl⟩
theorem witness_WidthErrorIsOfCreateAlone : start.bank .b2 = .empty ∧ (0#8).toNat = 0 ∧ 9 ≤ (9#8).toNat ∧
    9 ≤ (255#8).toNat ∧ exec (.create .b2 9#8 0#16) start = .next (raise .width start) := ⟨rfl, rfl, by decide, by decide, rfl⟩
theorem witness_CapacityErrorIsOfCreateAlone : tiny.bank .b2 = .empty ∧ 1 ≤ (1#8).toNat ∧ (8#8).toNat ≤ 8 ∧
    tiny.cfg.bmax < bucketsCount (8#16).toNat (1#8).toNat ∧ tiny.cfg.bmax < bucketsCount (1#16).toNat (8#8).toNat ∧
    exec (.create .b2 1#8 8#16) tiny = .next (raise .capacity tiny) :=
  ⟨rfl, by decide, by decide, by decide, by decide, rfl⟩
theorem witness_RangeErrorIsOfThreeCommands : start.bank .b0 = .occupied bankA ∧ bankA.n.toNat < (6#16).toNat ∧
    bankA.bc.toNat ≤ (3#16).toNat ∧ exec (.count .b0 6#16) start = .next (raise .range start) ∧
    exec (.rdb .b0 3#16) start = .next (raise .range start) ∧
    exec (.wrb .b0 3#16 0#8) start = .next (raise .range start) := ⟨rfl, by decide, by decide, rfl, rfl, rfl⟩
theorem witness_IncIsSilent : start.bank .b0 = .occupied bankA ∧ bankA.n.toNat < (6#16).toNat ∧
    bankA.countRaw (1#16).toNat = maxCount bankA.k.toNat := by decide
theorem witness_CreateMakesAnEmptyMultiset : start.bank .b2 = .empty ∧ 1 ≤ (1#8).toNat ∧ (8#8).toNat ≤ 8 ∧
    (((0xFFFF#16).toNat + 1) * (8#8).toNat + 7) / 8 ≤ start.cfg.bmax ∧
    (((0#16).toNat + 1) * (1#8).toNat + 7) / 8 ≤ tiny.cfg.bmax := by decide
theorem witness_FreeEmptiesTheBank : start.bank .b1 = .occupied bankB := by decide
theorem witness_CopyDuplicatesTheBank : start.bank .b0 = .occupied bankA ∧ start.bank .b2 = .empty := by decide
theorem witness_InfoReturnsTheField : start.bank .b1 = .occupied bankB ∧ start.bank .b3 = .empty := by decide
theorem witness_BucketsCountIsTheLeast : (20 + 1) * 3 ≤ 8 * 8 ∧ (65535 + 1) * 8 ≤ 65536 * 8 := by decide
theorem witness_FieldsLieInTheBuffer : bankA.wf start.cfg = true ∧ 0 ≤ bankA.n.toNat ∧ 5 ≤ bankA.n.toNat ∧
    straddles 5 bankA.k.toNat = true := by decide
theorem witness_CountReadsTheField : start.bank .b0 = .occupied bankA ∧ bankA.wf start.cfg = true ∧
    (5#16).toNat ≤ bankA.n.toNat ∧ 0 < bankA.k.toNat ∧ 2 < bankA.k.toNat := by decide
theorem witness_CounterPrimitiveLaws : bankA.wf start.cfg = true ∧ 5 ≤ bankA.n.toNat ∧ 7 ≤ maxCount bankA.k.toNat ∧
    4 ≤ bankA.n.toNat ∧ 4 ≠ 5 ∧ 0 ≠ byteIndex 5 bankA.k.toNat ∧ 0 ≠ byteIndex 5 bankA.k.toNat + 1 ∧
    ¬ (5 * bankA.k.toNat ≤ 14 ∧ 14 < 5 * bankA.k.toNat + bankA.k.toNat) := by decide
theorem witness_CounterPrimitiveLaws_padding : isPadding bankA 18 ∧ isPadding bankA 23 := by
  constructor <;> (unfold isPadding; decide)
theorem witness_IncAddsOneAndSaturates : start.bank .b0 = .occupied bankA ∧ bankA.wf start.cfg = true ∧
    (5#16).toNat ≤ bankA.n.toNat ∧ (1#16).toNat ≤ bankA.n.toNat ∧ bankA.countRaw 5 = 3 ∧ bankA.countRaw 1 = 7 ∧
    0 ≠ byteIndex 5 bankA.k.toNat ∧ 0 ≠ byteIndex 5 bankA.k.toNat + 1 := by decide
theorem witness_IncrementLaw : start.bank .b0 = .occupied bankA ∧ bankA.wf start.cfg = true ∧
    (5#16).toNat ≤ bankA.n.toNat ∧ start.bank .b2 = .empty ∧ 1 ≤ (8#8).toNat ∧ (8#8).toNat ≤ 8 ∧
    bucketsCount (0xFFFF#16).toNat (8#8).toNat ≤ start.cfg.bmax ∧ (0xFFFF#16).toNat ≤ (0xFFFF#16).toNat := by decide
theorem witness_SeparationLaw : start.bank .b0 = .occupied bankA ∧ bankA.wf start.cfg = true ∧
    (4#16).toNat ≤ bankA.n.toNat ∧ (5#16).toNat ≤ bankA.n.toNat ∧ 4#16 ≠ 5#16 := by decide
theorem witness_AddOccIsOneFieldWrite : bankA.wf start.cfg = true ∧ 5 ≤ bankA.n.toNat ∧
    bankA.countRaw 5 + 4 ≤ 2 ^ bankA.k.toNat - 1 := by decide
theorem witness_ComplInvertsEveryByte : start.bank .b0 = .occupied bankA ∧ start.bank .b2 = .empty ∧ 2 < bankA.bc.toNat := by
  decide
theorem witness_ComplLaws : start.bank .b0 = .occupied bankA ∧ bankA.wf start.cfg = true ∧ start.bank .b2 = .empty ∧
    start.bank .b3 = .empty ∧ BankId.b3 ≠ .b2 ∧ 5 ≤ bankA.n.toNat := by decide
theorem witness_IsectIsTheMinimum : start.bank .b0 = .occupied bankA ∧ start.bank .b1 = .occupied bankB ∧
    start.bank .b2 = .empty ∧ bankA.wf start.cfg = true ∧ bankB.wf start.cfg = true ∧
    (3#16).toNat ≤ min bankA.n.toNat bankB.n.toNat := by decide
theorem witness_IsectIsTheMinimum_padding : isPadding (isectOf bankA bankA) 18 := by unfold isPadding; decide
theorem witness_IsectlClosedForm : start.bank .b0 = .occupied bankA ∧ start.bank .b1 = .occupied bankB ∧
    start.bank .b2 = .empty ∧ bankA.wf start.cfg = true ∧ bankB.wf start.cfg = true ∧
    (3#16).toNat ≤ min bankA.n.toNat bankB.n.toNat ∧ 0 < min bankA.bc.toNat bankB.bc.toNat := by decide
theorem witness_IsectlClosedForm_padding : isPadding (isectlOf bankA bankA) 18 := by unfold isPadding; decide
theorem witness_DiffSubtracts : start.bank .b0 = .occupied bankA ∧ start.bank .b1 = .occupied bankB ∧
    start.bank .b2 = .empty ∧ bankA.wf start.cfg = true ∧ bankB.wf start.cfg = true ∧
    (5#16).toNat ≤ bankA.n.toNat ∧ (3#16).toNat ≤ bankB.n.toNat := by decide
theorem witness_DiffSubtracts_padding : isPadding (diffOf bankA bankB) 23 := by unfold isPadding; decide
theorem witness_OperatorsKeepTheirSources : start.bank .b0 = .occupied bankA ∧ start.bank .b1 = .occupied bankB ∧
    Instr.diff .b2 .b0 .b1 ∈ [Instr.compl .b2 .b0, .isect .b2 .b0 .b1, .isectl .b2 .b0 .b1, .diff .b2 .b0 .b1] ∧
    start.bank .b2 = .empty ∧ destination (.inc .b1 0#16) = some .b1 ∧ destination (.free .b0) = some .b0 ∧
    Instr.diff .b2 .b0 .b1 ≠ .compl .b2 .b0 := by decide
theorem witness_OperatorsKeepTheirSources_run : ∃ t u, exec (.diff .b2 .b0 .b1) start = .next t ∧
    exec (.inc .b1 0#16) (takeResponse t) = .next u := ⟨_, _, rfl, rfl⟩
/-- Lanes 5 of `a` and 3 of `b` differ, lane 0 does not. -/
theorem witness_LanesDoNotInteract : bankA.wf start.cfg = true ∧ bankB.wf start.cfg = true ∧
    (holds 5 3 3 [0x5C, 0x8A, 0x80]).wf start.cfg = true ∧ (holds 3 2 1 [0xD1]).wf start.cfg = true ∧
    0 ≤ bankA.n.toNat ∧ 0 ≤ bankB.n.toNat ∧ (holds 5 3 3 [0x5C, 0x8A, 0x80]).countRaw 0 = bankA.countRaw 0 ∧
    (holds 3 2 1 [0xD1]).countRaw 0 = bankB.countRaw 0 ∧ (holds 5 3 3 [0x5C, 0x8A, 0x80]) ≠ bankA := by decide
/-- A lane of `a` beyond the domain of `b`, and another lane of `a` that differs. -/
theorem witness_LanesDoNotInteract_beyond : (holds 5 3 3 [0x1C, 0x8A, 0xC0]).countRaw 5 = bankA.countRaw 5 ∧
    bankB.n.toNat < 5 ∧ 5 ≤ bankA.n.toNat ∧ (holds 5 3 3 [0x1C, 0x8A, 0xC0]).wf start.cfg = true := by decide
theorem witness_PaddingBits : bankA.wf start.cfg = true ∧ (holds 5 3 3 [0x5C, 0x8A, 0xFF]).wf start.cfg = true ∧
    (holds 5 3 3 [0x5C, 0x8A, 0xFF]).n = bankA.n ∧ (holds 5 3 3 [0x5C, 0x8A, 0xFF]).k = bankA.k ∧ 5 ≤ bankA.n.toNat ∧
    (∀ y < 18, (holds 5 3 3 [0x5C, 0x8A, 0xFF]).buckets.streamBit y = bankA.buckets.streamBit y) := by decide
theorem witness_PaddingBits_places : isPadding bankA 18 ∧ isPadding bankA 23 ∧ isPadding (isectOf bankA bankA) 23 := by
  refine ⟨?_, ?_, ?_⟩ <;> (unfold isPadding; decide)
theorem witness_RdbReturnsTheByte : start.bank .b0 = .occupied bankA ∧ (2#16).toNat < bankA.bc.toNat ∧
    (0#16).toNat < bankA.bc.toNat := by decide
theorem witness_WrbSetsTheByte : start.bank .b0 = .occupied bankA ∧ bankA.buckets.wf = true ∧
    (2#16).toNat < bankA.bc.toNat := by decide
theorem witness_RawAccessLaws : start.bank .b0 = .occupied bankA ∧ bankA.wf start.cfg = true ∧
    (2#16).toNat < bankA.bc.toNat ∧ (1#16).toNat < bankA.bc.toNat ∧ 1#16 ≠ 2#16 ∧ start.bank .b2 = .empty ∧
    bucketsCount (0xFFFF#16).toNat (8#8).toNat ≤ start.cfg.bmax ∧
    (0xFFFF#16).toNat < bucketsCount (0xFFFF#16).toNat (8#8).toNat := by decide
theorem witness_CountIsAFunctionOfItsBytes : (holds 5 3 3 [0x00, 0x8A, 0xC0]).k = bankA.k ∧
    straddles 5 bankA.k.toNat = true ∧ byteIndex 5 bankA.k.toNat = 1 ∧
    (holds 5 3 3 [0x00, 0x8A, 0xC0]).buckets.read 1 = bankA.buckets.read 1 ∧
    (holds 5 3 3 [0x00, 0x8A, 0xC0]).buckets.read 2 = bankA.buckets.read 2 := by decide
theorem witness_DumpReadsTheInstance : start.bank .b0 = .occupied bankA ∧ bankA.wf start.cfg = true ∧
    start.bank .b2 = .empty := by decide
theorem witness_LoadOfDumpRestoresTheInstance : start.wf = true ∧ start.bank .b0 = .occupied bankA ∧
    dump .b0 start = some (⟨5, 3, 3, [0x5C#8, 0x8A#8, 0xC0#8]⟩, start) := by decide
theorem witness_LoadRefusesCorruptImage : 5 < 65536 ∧ 1 ≤ 3 ∧ 3 ≤ 8 ∧ bucketsCount 5 3 ≤ start.cfg.bmax ∧
    [0x5C#8, 0x8A#8].length = 2 ∧ 2 ≠ bucketsCount 5 3 := by decide

end Sys2Proof.Tests
end

section
/-! The byte count of a buffer (00_scope.md R8): from the bounds `bucketsCount_bits` it is the least that holds the
fields. -/

namespace Sys2Proof.Machine

/-- Were fewer bytes enough, the padding would hold a whole byte, more than the 7 bits left over. -/
theorem bucketsCount_le_of_holds {n k c : Nat} (h : (n + 1) * k ≤ c * 8) : bucketsCount n k ≤ c := by
  obtain ⟨-, padding⟩ := bucketsCount_bits n k
  omega

/-- A byte for each element holds its field, so the least count is no greater. -/
theorem bucketsCount_le_elements (n : Nat) {k : Nat} (hk : k ≤ 8) : bucketsCount n k ≤ n + 1 :=
  bucketsCount_le_of_holds (Nat.mul_le_mul_left (n + 1) hk)

/-- Settles O37: the two bounds of `bucketsCount_bits` give the capacity and the padding, and make the count least. -/
theorem bucketsCountIsTheLeast : Obligations.BucketsCountIsTheLeast := by
  refine ⟨fun n k => ?_, by decide⟩
  obtain ⟨fits, padding⟩ := bucketsCount_bits n k
  exact ⟨fits, by omega, fun _ => bucketsCount_le_of_holds, bucketsCount_le_elements n⟩

end Sys2Proof.Machine
end

section
/-! What a command does to the banks, said once: it keeps them, fills an empty one, frees one, or rewrites the buffer
of an occupied one. The frame, the fixed sizes and the invariant are read off from these four cases. -/

namespace Sys2Proof.Machine

/-! ### Running through the operand forms -/

/-- What holds of every error, and of the rest of the command on an occupied bank, holds of both together. -/
theorem needOccupied_induct {R : State → Prop} {i : BankId} {s : State} {go : PackedMultiset → State}
    (error : ∀ e, R (raise e s)) (rest : ∀ p, s.bank i = .occupied p → R (go p)) : R (needOccupied i s go) := by
  cases hb : s.bank i with
  | empty => rw [needOccupied_empty hb]; exact error _
  | occupied p => rw [needOccupied_occupied hb]; exact rest p hb

/-- What holds of every error, and of the rest of the command on an empty bank, holds of both together. -/
theorem needEmpty_induct {R : State → Prop} {i : BankId} {s go : State}
    (error : ∀ e, R (raise e s)) (rest : s.bank i = .empty → R go) : R (needEmpty i s go) := by
  cases hb : s.bank i with
  | empty => rw [needEmpty_empty hb]; exact rest hb
  | occupied p => rw [needEmpty_occupied hb]; exact error _

/-! ### The four effects -/

/-- What a filling command puts into its empty destination (40_lifecycle.md R74). -/
inductive Filling (s : State) : Instr → BankId → PackedMultiset → Prop where
  | create {rd : BankId} {k : BitVec 8} {n : BitVec 16} (pos : 1 ≤ k.toNat) (le : k.toNat ≤ 8)
      (fits : bucketsCount n.toNat k.toNat ≤ s.cfg.bmax) :
      Filling s (.create rd k n) rd (newInst n (k.setWidth 4))
  | copy {rd ra : BankId} {a : PackedMultiset} (ha : s.bank ra = .occupied a) : Filling s (.copy rd ra) rd a
  | compl {rd ra : BankId} {a : PackedMultiset} (ha : s.bank ra = .occupied a) :
      Filling s (.compl rd ra) rd (complOf a)
  | isect {rd ra rb : BankId} {a b : PackedMultiset} (ha : s.bank ra = .occupied a) (hb : s.bank rb = .occupied b) :
      Filling s (.isect rd ra rb) rd (isectOf a b)
  | isectl {rd ra rb : BankId} {a b : PackedMultiset} (ha : s.bank ra = .occupied a) (hb : s.bank rb = .occupied b) :
      Filling s (.isectl rd ra rb) rd (isectlOf a b)
  | diff {rd ra rb : BankId} {a b : PackedMultiset} (ha : s.bank ra = .occupied a) (hb : s.bank rb = .occupied b) :
      Filling s (.diff rd ra rb) rd (diffOf a b)

/-- How a command changes an occupied bank that stays occupied (10_state.md R27). -/
inductive Rewriting : Instr → BankId → PackedMultiset → PackedMultiset → Prop where
  | inc (rd : BankId) (e : BitVec 16) (p : PackedMultiset) : Rewriting (.inc rd e) rd p (p.increment e.toNat)
  | wrb (rd : BankId) {idx : BitVec 16} (byte : Byte) {p : PackedMultiset} (inside : idx.toNat < p.bc.toNat) :
      Rewriting (.wrb rd idx byte) rd p { p with buckets := p.buckets.write idx.toNat byte }

/-- The four things a command can do to the banks. -/
inductive BankEffect (c : Instr) (s : State) : State → Prop where
  | kept {t : State} (h : banksKept s t) : BankEffect c s t
  | filled {rd : BankId} {p : PackedMultiset} (was : s.bank rd = .empty) (new : Filling s c rd p) :
      BankEffect c s (fill rd p s)
  | freed {rd : BankId} (free : c = .free rd) : BankEffect c s (respond .ok 0#32 (s.setBank rd .empty))
  | rewritten {rd : BankId} {p q : PackedMultiset} (was : s.bank rd = .occupied p) (new : Rewriting c rd p q) :
      BankEffect c s (respond .ok 0#32 (s.setBank rd (.occupied q)))

theorem BankEffect.error (c : Instr) (s : State) (e : Status) : BankEffect c s (raise e s) :=
  .kept fun j => raise_bank e s j

theorem BankEffect.answer (c : Instr) (s : State) (d : Word) : BankEffect c s (respond .ok d s) :=
  .kept fun j => respond_bank .ok d s j

/-- A filling command with one source. -/
theorem BankEffect.fill_one {c : Instr} {s : State} {rd ra : BankId} {f : PackedMultiset → PackedMultiset}
    (new : ∀ a, s.bank ra = .occupied a → Filling s c rd (f a)) :
    BankEffect c s (needOccupied ra s fun a => needEmpty rd s (fill rd (f a) s)) :=
  needOccupied_induct (.error c s) fun a ha => needEmpty_induct (.error c s) fun was => .filled was (new a ha)

/-- A filling command with two sources. -/
theorem BankEffect.fill_two {c : Instr} {s : State} {rd ra rb : BankId}
    {f : PackedMultiset → PackedMultiset → PackedMultiset}
    (new : ∀ a b, s.bank ra = .occupied a → s.bank rb = .occupied b → Filling s c rd (f a b)) :
    BankEffect c s (needOccupied ra s fun a => needOccupied rb s fun b => needEmpty rd s (fill rd (f a b) s)) :=
  needOccupied_induct (.error c s) fun a ha => .fill_one fun b hb => new a b ha hb

theorem BankEffect.createIn {s : State} {rd : BankId} (k : BitVec 8) (n : BitVec 16) (was : s.bank rd = .empty) :
    BankEffect (.create rd k n) s (createIn rd k n s) := by
  by_cases width : k.toNat = 0 ∨ 9 ≤ k.toNat
  · rw [createIn_width width]
    exact .error _ s _
  · have pos : 1 ≤ k.toNat := by omega
    have le : k.toNat ≤ 8 := by omega
    rcases Nat.lt_or_ge s.cfg.bmax (bucketsCount n.toNat k.toNat) with tooBig | fits
    · rw [createIn_capacity pos le tooBig]
      exact .error _ s _
    · rw [createIn_fill pos le fits]
      exact .filled was (.create pos le fits)

/-- Every command does one of the four things to the banks. -/
theorem exec_bankEffect (c : Instr) (s : State) : ∃ t, exec c s = .next t ∧ BankEffect c s t := by
  cases c with
  | create rd k n => exact ⟨_, rfl, needEmpty_induct (.error _ s) (.createIn k n)⟩
  | free rd => exact ⟨_, rfl, needOccupied_induct (.error _ s) fun _ _ => .freed rfl⟩
  | copy rd ra => exact ⟨_, rfl, .fill_one fun _ => .copy⟩
  | info ra sel =>
    refine ⟨_, rfl, ?_⟩
    split_ifs
    · exact .answer _ s _
    · exact needOccupied_induct (.error _ s) fun _ _ => .answer _ s _
  | count ra e =>
    refine ⟨_, rfl, needOccupied_induct (.error _ s) fun _ _ => ?_⟩
    split_ifs
    · exact .error _ s _
    · exact .answer _ s _
  | inc rd e => exact ⟨_, rfl, needOccupied_induct (.error _ s) fun p was => .rewritten was (.inc rd e p)⟩
  | compl rd ra => exact ⟨_, rfl, .fill_one fun _ => .compl⟩
  | isect rd ra rb => exact ⟨_, rfl, .fill_two fun _ _ => .isect⟩
  | isectl rd ra rb => exact ⟨_, rfl, .fill_two fun _ _ => .isectl⟩
  | diff rd ra rb => exact ⟨_, rfl, .fill_two fun _ _ => .diff⟩
  | rdb ra idx =>
    refine ⟨_, rfl, needOccupied_induct (.error _ s) fun _ _ => ?_⟩
    split_ifs
    · exact .error _ s _
    · exact .answer _ s _
  | wrb rd idx byte =>
    refine ⟨_, rfl, needOccupied_induct (.error _ s) fun p was => ?_⟩
    split_ifs with range
    · exact .error _ s _
    · exact .rewritten was (.wrb rd byte (Nat.not_le.1 range))

/-- What a command has done to the banks of its next state. -/
theorem bankEffect_of_exec {c : Instr} {s t : State} (h : exec c s = .next t) : BankEffect c s t := by
  obtain ⟨u, hu, effect⟩ := exec_bankEffect c s
  rw [hu] at h
  cases h
  exact effect

/-! ### The frame of a command (10_state.md R20) -/

theorem sameEnvironment_of_exec {c : Instr} {s t : State} (h : exec c s = .next t) : sameEnvironment s t := by
  cases effect_of_exec h with
  | error e _ => exact ⟨rfl, rfl⟩
  | answer d => exact ⟨rfl, rfl⟩
  | write rd b _ => exact ⟨by simp, by simp⟩

theorem bank_of_exec_of_ne_destination {c : Instr} {s t : State} (h : exec c s = .next t) {j : BankId}
    (hj : destination c ≠ some j) : t.bank j = s.bank j := by
  cases effect_of_exec h with
  | error e _ => exact raise_bank e s j
  | answer d => exact respond_bank .ok d s j
  | write rd b hd =>
    have other : j ≠ rd := by
      rintro rfl
      exact hj hd
    rw [respond_bank, bank_setBank_ne other]

/-- Settles O21: of the three shapes of a next state only the write touches a bank, and it names the destination. -/
theorem commandWritesOnlyItsDestination : Obligations.CommandWritesOnlyItsDestination :=
  fun _ _ _ h => ⟨fun _ hj => bank_of_exec_of_ne_destination h hj, sameEnvironment_of_exec h⟩

/-! ### The sizes of an occupied bank (10_state.md R27) -/

/-- The three size fields of an occupied bank, those of 10_state.md R12 to R14, are the same. -/
def sameSizes (p q : PackedMultiset) : Prop := q.n = p.n ∧ q.k = p.k ∧ q.bc = p.bc

theorem Rewriting.sameSizes {c : Instr} {i : BankId} {p q : PackedMultiset} (h : Rewriting c i p q) :
    sameSizes p q := by
  cases h with
  | inc => exact ⟨increment_n _ _, increment_k _ _, increment_bc _ _⟩
  | wrb => exact ⟨rfl, rfl, rfl⟩

/-- Only INC and WRB rewrite a bank. -/
theorem Rewriting.inc_or_wrb {c : Instr} {i : BankId} {p q : PackedMultiset} (h : Rewriting c i p q) :
    (∃ e, c = .inc i e) ∨ ∃ idx y, c = .wrb i idx y := by
  cases h with
  | inc => exact .inl ⟨_, rfl⟩
  | wrb => exact .inr ⟨_, _, rfl⟩

/-- A bank that is occupied before and after a command holds what it held, or the command rewrote it: a filling command
found its destination empty and FREE leaves it empty. -/
theorem eq_or_rewriting_of_exec {c : Instr} {s t : State} {i : BankId} {p q : PackedMultiset}
    (h : exec c s = .next t) (before : s.bank i = .occupied p) (after : t.bank i = .occupied q) :
    q = p ∨ Rewriting c i p q := by
  have eq_of_kept (same : t.bank i = s.bank i) : q = p := by
    rw [before, after] at same
    exact Bank.occupied.inj same
  cases bankEffect_of_exec h with
  | kept same => exact .inl (eq_of_kept (same i))
  | @filled rd _ was _ =>
    have other : i ≠ rd := by
      rintro rfl
      simp [before] at was
    exact .inl (eq_of_kept (by rw [fill_bank, if_neg other]))
  | @freed rd _ =>
    have other : i ≠ rd := by
      rintro rfl
      simp at after
    exact .inl (eq_of_kept (by rw [respond_bank, bank_setBank_ne other]))
  | @rewritten rd _ _ was new =>
    by_cases here : i = rd
    · subst here
      rw [before] at was
      rw [respond_bank, bank_setBank_self] at after
      cases was
      cases after
      exact .inr new
    · exact .inl (eq_of_kept (by rw [respond_bank, bank_setBank_ne here]))

theorem sameSizes_of_exec {c : Instr} {s t : State} {i : BankId} {p q : PackedMultiset} (h : exec c s = .next t)
    (before : s.bank i = .occupied p) (after : t.bank i = .occupied q) : sameSizes p q := by
  rcases eq_or_rewriting_of_exec h before after with rfl | new
  · exact ⟨rfl, rfl, rfl⟩
  · exact new.sameSizes

/-- A step empties the banks, keeps them, or executes a command of the table. -/
theorem banks_of_step {s t : State} (h : step s = .next t) :
    (∀ i, t.bank i = .empty) ∨ banksKept s t ∨ ∃ c, exec c (advance s) = .next t := by
  cases kind_of_step h with
  | reset _ => exact .inl (by simp)
  | accept _ _ _ => exact .inr (.inl fun i => by simp)
  | take _ _ _ _ => exact .inr (.inl fun i => by simp)
  | wait _ _ => exact .inr (.inl fun i => by simp)
  | illegal _ _ _ _ _ => exact .inr (.inl fun i => by simp)
  | run _ _ _ c _ _ he => exact .inr (.inr ⟨c, he⟩)

theorem sameSizes_of_step {s t : State} {i : BankId} {p q : PackedMultiset} (h : step s = .next t)
    (before : s.bank i = .occupied p) (after : t.bank i = .occupied q) : sameSizes p q := by
  rcases banks_of_step h with empty | same | ⟨c, he⟩
  · rw [empty i] at after
    cases after
  · rw [same i, before] at after
    cases after
    exact ⟨rfl, rfl, rfl⟩
  · exact sameSizes_of_exec he (by rw [advance_bank, before]) after

/-- Settles O20: a bank occupied on both sides was kept or rewritten, and the two rewriting commands keep the sizes. -/
theorem sizesAreFixedWhileOccupied : Obligations.SizesAreFixedWhileOccupied :=
  ⟨fun _ _ _ _ _ h before after => sameSizes_of_step h before after,
    fun _ _ _ _ _ _ h before after changed =>
      ((eq_or_rewriting_of_exec h before after).resolve_left changed).inc_or_wrb⟩

end Sys2Proof.Machine
end

section
/-! What the set operators build (42_set_operators.md R100): a well-formed result of the sizes the operator fixes, whose
stream is 0 behind its last field. -/

namespace Sys2Proof.Machine

/-! ### Writes inside the domain leave the padding alone (10_state.md R18) -/

/-- A stream bit behind the last field is in no element's field. -/
theorem putField_streamBit_behind {c : Config} {p : PackedMultiset} (h : p.wf c = true) {e v x : Nat}
    (he : e ≤ p.n.toNat) (hv : v < 2 ^ p.k.toNat) (hx : (p.n.toNat + 1) * p.k.toNat ≤ x) :
    (p.putField e v).buckets.streamBit x = p.buckets.streamBit x := by
  have := field_le (k := p.k.toNat) he
  rw [putField_streamBit h hv, if_neg (by omega)]

/-- A counter that is not at its ceiling has room for one more (41_counter_access.md R81). -/
theorem countRaw_succ_lt {c : Config} {p : PackedMultiset} (h : p.wf c = true) {e : Nat}
    (unsaturated : p.countRaw e ≠ maxCount p.k.toNat) : p.countRaw e + 1 < 2 ^ p.k.toNat := by
  have := countRaw_lt h e
  rw [maxCount] at unsaturated
  omega

theorem increment_streamBit_behind {c : Config} {p : PackedMultiset} (h : p.wf c = true) (e : Nat) {x : Nat}
    (hx : (p.n.toNat + 1) * p.k.toNat ≤ x) : (p.increment e).buckets.streamBit x = p.buckets.streamBit x := by
  rcases increment_cases p e with ⟨same, -⟩ | ⟨put, he, unsaturated⟩
  · rw [same]
  · rw [put, putField_streamBit_behind h he (countRaw_succ_lt h unsaturated) hx]

/-! ### What the loops keep -/

/-- A well-formed result of domain `n` and width `k` that holds 0 behind its last field: what NewInst makes, and what
every field write and every increment keeps. -/
structure Built (c : Config) (n : BitVec 16) (k : BitVec 4) (r : PackedMultiset) : Prop where
  domain : r.n = n
  width : r.k = k
  wf : r.wf c = true
  behind : ∀ x, (n.toNat + 1) * k.toNat ≤ x → r.buckets.streamBit x = false

theorem newInst_built {c : Config} {n : BitVec 16} {k : BitVec 4} (h : (newInst n k).wf c = true) :
    Built c n k (newInst n k) :=
  ⟨rfl, rfl, h, fun x _ => streamBit_zeroFilled x⟩

theorem Built.putField {c : Config} {n : BitVec 16} {k : BitVec 4} {r : PackedMultiset} (h : Built c n k r) {e v : Nat}
    (he : e ≤ n.toNat) (hv : v < 2 ^ k.toNat) : Built c n k (r.putField e v) := by
  obtain ⟨rfl, rfl, wf, behind⟩ := h
  exact ⟨rfl, rfl, putField_wf wf he v, fun x hx => by rw [putField_streamBit_behind wf he hv hx, behind x hx]⟩

theorem Built.increment {c : Config} {n : BitVec 16} {k : BitVec 4} {r : PackedMultiset} (h : Built c n k r) (e : Nat) :
    Built c n k (r.increment e) := by
  obtain ⟨rfl, rfl, wf, behind⟩ := h
  exact ⟨increment_n r e, increment_k r e, increment_wf wf e,
    fun x hx => by rw [increment_streamBit_behind wf e hx, behind x hx]⟩

theorem Built.addOcc {c : Config} {n : BitVec 16} {k : BitVec 4} {r : PackedMultiset} (h : Built c n k r) (e m : Nat) :
    Built c n k (r.addOcc e m) := by
  induction m with
  | zero => exact h
  | succ m ih => exact ih.increment e

/-! ### The four operators -/

/-- The lesser of two counts fits the lesser of the two widths. -/
theorem min_countRaw_lt {c : Config} {a b : PackedMultiset} (ha : a.wf c = true) (hb : b.wf c = true) (e : Nat) :
    min (a.countRaw e) (b.countRaw e) < 2 ^ (minField a.k b.k).toNat := by
  have fitsA := countRaw_lt ha e
  have fitsB := countRaw_lt hb e
  rw [minField_toNat]
  rcases Nat.le_total a.k.toNat b.k.toNat with le | le
  · rw [Nat.min_eq_left le]
    omega
  · rw [Nat.min_eq_right le]
    omega

theorem isectOf_built {c : Config} {a b : PackedMultiset} (ha : a.wf c = true) (hb : b.wf c = true) :
    Built c (minField a.n b.n) (minField a.k b.k) (isectOf a b) :=
  forUp_keeps (newInst_built (minField_wf ha hb)) fun e _ he built =>
    built.putField (Nat.le_of_lt_succ he) (min_countRaw_lt ha hb e)

theorem isectlOf_built {c : Config} {a b : PackedMultiset} (ha : a.wf c = true) (hb : b.wf c = true) :
    Built c (minField a.n b.n) (minField a.k b.k) (isectlOf a b) := by
  refine forUp_keeps (newInst_built (minField_wf ha hb)) fun i r _ built => ?_
  rw [isectlElem]
  split_ifs
  · exact built.addOcc i 1
  · exact built

/-- An occupied bank's sizes are legal for a new one. -/
theorem newInst_wf_of_wf {c : Config} {a : PackedMultiset} (ha : a.wf c = true) : (newInst a.n a.k).wf c = true :=
  newInst_wf (wf_k_pos ha) (wf_k_le ha) (wf_bc ha ▸ wf_bc_le ha)

theorem diffOf_built {c : Config} {a : PackedMultiset} (ha : a.wf c = true) (b : PackedMultiset) :
    Built c a.n a.k (diffOf a b) := by
  refine forUp_keeps (newInst_built (newInst_wf_of_wf ha)) fun i r _ built => ?_
  rw [diffElem]
  split_ifs
  · exact built.addOcc i _
  · exact built

/-- Another buffer of the same size in canonical form keeps a multiset well formed. -/
theorem withBuckets_wf {c : Config} {p : PackedMultiset} (h : p.wf c = true) {m : Memory} (canonical : m.wf = true)
    (bounded : m.below p.bc.toNat = true) : ({ p with buckets := m } : PackedMultiset).wf c = true := by
  obtain ⟨width, size, -, -⟩ := wf_iff.1 h
  exact wf_iff.2 ⟨width, size, canonical, bounded⟩

theorem complOf_wf {c : Config} {a : PackedMultiset} (ha : a.wf c = true) : (complOf a).wf c = true :=
  withBuckets_wf ha (Memory.wf_tabulate _ _) (Memory.below_tabulate _ _)

/-- The complement inverts every stream bit of the buffer (42_set_operators.md R101). -/
theorem complOf_streamBit (a : PackedMultiset) {x : Nat} (hx : x < a.bc.toNat * 8) :
    (complOf a).buckets.streamBit x = !a.buckets.streamBit x := by
  have inBuffer : x / 8 < a.bc.toNat := by omega
  have inByte : 7 - x % 8 < 8 := by omega
  simp [Memory.streamBit, complOf, Memory.read_tabulate, inBuffer, inByte]

/-! ### The padding bits (10_state.md R18) -/

theorem padding_le_seven {c : Config} {a : PackedMultiset} (ha : a.wf c = true) :
    a.bc.toNat * 8 - (a.n.toNat + 1) * a.k.toNat ≤ 7 := by
  obtain ⟨-, leftOver⟩ := bucketsCount_bits a.n.toNat a.k.toNat
  rw [wf_bc ha]
  omega

theorem padding_in_last_byte {c : Config} {a : PackedMultiset} (ha : a.wf c = true) {x : Nat} (hx : isPadding a x) :
    x / 8 = a.bc.toNat - 1 := by
  have := padding_le_seven ha
  obtain ⟨behind, inside⟩ := hx
  omega

/-- A count reads only its own field, and no field holds a padding bit. -/
theorem countRaw_congr_padding {c : Config} {a b : PackedMultiset} (ha : a.wf c = true) (hk : b.k = a.k)
    (agree : ∀ y, ¬ isPadding a y → b.buckets.streamBit y = a.buckets.streamBit y) {e : Nat} (he : e ≤ a.n.toNat) :
    b.countRaw e = a.countRaw e := by
  refine countRaw_congr ha hk fun y _ inField => agree y fun hy => ?_
  have := field_le (k := a.k.toNat) he
  have := hy.1
  omega

/-- Settles O53: the fields end before the padding, so a field write or an increment never reaches it, and what an
operator builds from a zero-filled buffer keeps it 0. -/
theorem paddingBits : Obligations.PaddingBits := by
  intro c a b e x ha hb
  refine ⟨fun hx => ?_, fun hx => ?_, padding_le_seven ha, fun _ hk agree he => countRaw_congr_padding ha hk agree he⟩
  · obtain ⟨behind, inside⟩ := hx
    exact ⟨padding_in_last_byte ha ⟨behind, inside⟩, increment_streamBit_behind ha e behind, complOf_streamBit a inside,
      streamBit_zeroFilled x, (diffOf_built ha b).behind x behind⟩
  · have built := isectOf_built ha hb
    obtain ⟨behind, -⟩ := hx
    rw [built.domain, built.width] at behind
    exact ⟨built.behind x behind, (isectlOf_built ha hb).behind x behind⟩

end Sys2Proof.Machine
end

section
/-! The invariant of the machine (10_state.md R16): reset meets it, every command and every step keeps it, so it holds
along every run. -/

namespace Sys2Proof.Machine

/-! ### The invariant, bank by bank -/

theorem state_wf_iff {s : State} :
    s.wf = true ↔ s.cfg.wf = true ∧ (∀ i, (s.bank i).wf s.cfg = true) ∧ s.port.wf = true := by
  have banks : (∀ i, (s.bank i).wf s.cfg = true) ↔ s.b0.wf s.cfg = true ∧ s.b1.wf s.cfg = true ∧
      s.b2.wf s.cfg = true ∧ s.b3.wf s.cfg = true :=
    ⟨fun h => ⟨h .b0, h .b1, h .b2, h .b3⟩, fun ⟨h0, h1, h2, h3⟩ i => by cases i <;> assumption⟩
  simp only [State.wf, Bool.and_eq_true, banks, and_assoc]

theorem occupied_wf {c : Config} {s : State} {i : BankId} {p : PackedMultiset}
    (banks : ∀ j, (s.bank j).wf c = true) (h : s.bank i = .occupied p) : p.wf c = true := by
  have := banks i
  rwa [h] at this

/-! ### The commands keep it -/

theorem Filling.wf {c : Instr} {s : State} {rd : BankId} {p : PackedMultiset} (h : Filling s c rd p)
    (banks : ∀ j, (s.bank j).wf s.cfg = true) : p.wf s.cfg = true := by
  cases h with
  | create pos le fits =>
    have narrowed := setWidth_four le
    rw [← narrowed] at pos le fits
    exact newInst_wf pos le fits
  | copy ha => exact occupied_wf banks ha
  | compl ha => exact complOf_wf (occupied_wf banks ha)
  | isect ha hb => exact (isectOf_built (occupied_wf banks ha) (occupied_wf banks hb)).wf
  | isectl ha hb => exact (isectlOf_built (occupied_wf banks ha) (occupied_wf banks hb)).wf
  | diff ha _ => exact (diffOf_built (occupied_wf banks ha) _).wf

theorem Rewriting.wf {c : Instr} {i : BankId} {g : Config} {p q : PackedMultiset} (h : Rewriting c i p q)
    (hp : p.wf g = true) : q.wf g = true := by
  cases h with
  | inc => exact increment_wf hp _
  | wrb _ _ inside =>
    exact withBuckets_wf hp (Memory.wf_write (wf_buckets hp) _ _) (Memory.below_write inside (wf_below hp))

/-- Writing a well-formed bank keeps the banks well formed. -/
theorem banks_wf_setBank {g : Config} {s : State} (banks : ∀ j, (s.bank j).wf g = true) (rd : BankId) {b : Bank}
    (hb : b.wf g = true) (j : BankId) : ((s.setBank rd b).bank j).wf g = true := by
  rw [bank_setBank]
  split_ifs
  · exact hb
  · exact banks j

theorem banks_wf_of_exec {c : Instr} {s t : State} (h : exec c s = .next t)
    (banks : ∀ j, (s.bank j).wf s.cfg = true) (j : BankId) : (t.bank j).wf s.cfg = true := by
  cases bankEffect_of_exec h with
  | kept same => rw [same j]; exact banks j
  | @filled rd p _ new => exact banks_wf_setBank banks rd (b := .occupied p) (new.wf banks) j
  | @freed rd _ => rw [respond_bank]; exact banks_wf_setBank banks rd rfl j
  | @rewritten rd p q was new =>
    rw [respond_bank]
    exact banks_wf_setBank banks rd (b := .occupied q) (new.wf (occupied_wf banks was)) j

/-- An error carries data 0 and every other response is `OK` (30_encoding.md R62). -/
theorem port_wf_of_exec {c : Instr} {s t : State} (h : exec c s = .next t) : t.port.wf = true := by
  cases effect_of_exec h with
  | error e _ => simp [Port.wf]
  | answer d => simp [Port.wf]
  | write rd b _ => simp [Port.wf]

theorem exec_keeps_wf {c : Instr} {s t : State} (hs : s.wf = true) (h : exec c s = .next t) : t.wf = true := by
  obtain ⟨config, banks, -⟩ := state_wf_iff.1 hs
  obtain ⟨sameConfig, -⟩ := sameEnvironment_of_exec h
  rw [state_wf_iff, sameConfig]
  exact ⟨config, banks_wf_of_exec h banks, port_wf_of_exec h⟩

/-! ### Every step keeps it -/

/-- Past the clock edge the banks and the port are the same. -/
theorem advance_wf {s : State} (hs : s.wf = true) : (advance s).wf = true := hs

/-- Banks kept and a well-formed port: what accepting a word, taking a response and an illegal word amount to. -/
theorem wf_of_banksKept {s t : State} (hs : s.wf = true) (config : t.cfg = s.cfg) (banks : banksKept s t)
    (port : t.port.wf = true) : t.wf = true := by
  obtain ⟨hc, hb, -⟩ := state_wf_iff.1 hs
  exact state_wf_iff.2 ⟨by rwa [config], fun i => by rw [banks i, config]; exact hb i, port⟩

theorem resetBlock_wf {s : State} (hs : s.wf = true) : (resetBlock s).wf = true := by
  obtain ⟨config, -, -⟩ := state_wf_iff.1 hs
  exact state_wf_iff.2 ⟨config, fun i => by rw [resetBlock_bank]; rfl, rfl⟩

/-- Settles O18, by the six things a step can do; the command in flight is the one that writes banks. -/
theorem stepKeepsTheInvariant : Obligations.StepKeepsTheInvariant := by
  intro s t hs h
  cases kind_of_step h with
  | reset _ => exact resetBlock_wf (advance_wf hs)
  | accept _ _ _ => exact wf_of_banksKept (advance_wf hs) rfl (acceptWord_bank _ _) rfl
  | take _ _ _ _ => exact wf_of_banksKept (advance_wf hs) rfl (takeResponse_bank _) rfl
  | wait _ _ => exact advance_wf hs
  | illegal _ _ _ _ _ => exact wf_of_banksKept (advance_wf hs) rfl (raise_bank _ _) rfl
  | run _ _ _ _ _ _ he => exact exec_keeps_wf (advance_wf hs) he

/-! ### From reset along every run -/

/-- Settles O16. -/
theorem resetStateHasNothing : Obligations.ResetStateHasNothing :=
  ⟨fun i => by cases i <;> rfl, fun w h => (nomatch h), rfl, rfl⟩

/-- Reset is well formed for every legal `BMAX` and every host: no bank and no response is there to break it. -/
theorem reset_wf {c : Config} (hc : c.wf = true) (hs : List HostPins) :
    ({ State.reset with cfg := c, host := hs } : State).wf = true :=
  state_wf_iff.2 ⟨hc, fun i => by cases i <;> rfl, rfl⟩

/-- Settles O17: the greatest `BMAX` is legal. -/
theorem resetStateMeetsTheInvariant : Obligations.ResetStateMeetsTheInvariant :=
  reset_wf (c := State.reset.cfg) (by decide) []

/-- What every step keeps holds after a run of any length. -/
theorem run_keeps {P : State → Prop} (keeps : ∀ s t, P s → step s = .next t → P t) {m : Nat} {s t : State} (hs : P s)
    (h : Host.Core.run core m s = .next t) : P t := by
  induction m generalizing s with
  | zero =>
    cases h
    exact hs
  | succ m ih =>
    obtain ⟨u, hu, -⟩ := step_kind s
    rw [run_next hu] at h
    exact ih (keeps s u hs hu) h

/-- No step writes `BMAX` (log 2). -/
theorem cfg_of_step {s t : State} (h : step s = .next t) : t.cfg = s.cfg := by
  cases kind_of_step h with
  | reset _ => rfl
  | accept _ _ _ => rfl
  | take _ _ _ _ => rfl
  | wait _ _ => rfl
  | illegal _ _ _ _ _ => rfl
  | run _ _ _ _ _ _ he => exact (sameEnvironment_of_exec he).1

theorem wf_and_cfg_of_run {c : Config} (hc : c.wf = true) {hs : List HostPins} {m : Nat} {t : State}
    (h : Host.Core.run core m { State.reset with cfg := c, host := hs } = .next t) : t.wf = true ∧ t.cfg = c :=
  run_keeps (P := fun s => s.wf = true ∧ s.cfg = c)
    (fun s u ⟨wf, config⟩ hu => ⟨stepKeepsTheInvariant s u wf hu, (cfg_of_step hu).trans config⟩)
    ⟨reset_wf hc hs, rfl⟩ h

/-- A buffer has at least one byte: element 0 has a field (10_state.md R16 (d)). -/
theorem wf_bc_pos {c : Config} {p : PackedMultiset} (h : p.wf c = true) : 1 ≤ p.bc.toNat := by
  have := field_in_buffer h (Nat.zero_le p.n.toNat)
  have := wf_k_pos h
  omega

/-- Settles O19: the invariant holds along the run, and it gives the five clauses. -/
theorem occupiedBanksAgree : Obligations.OccupiedBanksAgree := by
  intro c hs m t i p hc h hp
  obtain ⟨wf, rfl⟩ := wf_and_cfg_of_run hc h
  obtain ⟨-, banks, -⟩ := state_wf_iff.1 wf
  have bank := occupied_wf banks hp
  exact ⟨⟨wf_k_pos bank, wf_k_le bank⟩, Nat.le_of_lt_succ p.n.isLt, wf_bc bank, ⟨wf_bc_pos bank, wf_bc_le bank⟩,
    by rw [wf_bc bank]; exact (bucketsCount_bits _ _).1, padding_le_seven bank⟩

end Sys2Proof.Machine
end

section
/-! The two counter primitives (20_memory.md R34, R39): where the field of an element lies, and the laws of reading and
writing it, each read off from the effect of `PutField` on the stream. -/

namespace Sys2Proof.Machine

/-! ### The bytes of a field -/

/-- The first byte of a field of the domain is in the buffer, because the field's last bit is. -/
theorem byteIndex_lt_bc {c : Config} {p : PackedMultiset} (h : p.wf c = true) {e : Nat} (he : e ≤ p.n.toNat) :
    byteIndex e p.k.toNat < p.bc.toNat := by
  have := field_in_buffer h he
  have := wf_k_pos h
  rw [byteIndex]
  omega

/-- The second byte of a straddling field of the domain is in the buffer too. -/
theorem byteIndex_succ_lt_bc {c : Config} {p : PackedMultiset} (h : p.wf c = true) {e : Nat} (he : e ≤ p.n.toNat)
    (straddling : straddles e p.k.toNat = true) : byteIndex e p.k.toNat + 1 < p.bc.toNat := by
  have := field_in_buffer h he
  rw [straddles_iff] at straddling
  rw [byteIndex]
  omega

/-- Settles O38: the bytes of the field are below `bc`. -/
theorem fieldsLieInTheBuffer : Obligations.FieldsLieInTheBuffer := fun _ _ _ h he =>
  ⟨Nat.le_sub_one_of_lt (byteIndex_lt_bc h he),
    fun straddling => Nat.le_sub_one_of_lt (byteIndex_succ_lt_bc h he straddling)⟩

/-! ### The laws of the primitives -/

/-- What is at most the ceiling `2^k - 1` fits in `k` bits. -/
theorem lt_two_pow_of_le_maxCount {v k : Nat} (hv : v ≤ maxCount k) : v < 2 ^ k :=
  Nat.lt_of_le_of_lt hv (Nat.sub_one_lt (Nat.two_pow_pos k).ne')

/-- Read after write (20_memory.md R39 (a)). -/
theorem countRaw_putField_self {c : Config} {p : PackedMultiset} (h : p.wf c = true) {e v : Nat}
    (hv : v < 2 ^ p.k.toNat) : (p.putField e v).countRaw e = v := by
  rw [PackedMultiset.countRaw, putField_k]
  refine readField_eq (wf_k_le h) hv fun i hi => ?_
  rw [putField_streamBit h hv, if_pos (by omega)]
  congr 1
  omega

/-- A write leaves every stream bit outside the field as it was (20_memory.md R39 (c)). -/
theorem putField_streamBit_outside {c : Config} {p : PackedMultiset} (h : p.wf c = true) {e v x : Nat}
    (hv : v < 2 ^ p.k.toNat) (hx : ¬ (e * p.k.toNat ≤ x ∧ x < e * p.k.toNat + p.k.toNat)) :
    (p.putField e v).buckets.streamBit x = p.buckets.streamBit x := by
  rw [putField_streamBit h hv, if_neg hx]

/-- A write leaves every other count as it was: the two fields share no bit (20_memory.md R39 (b)). -/
theorem countRaw_putField_other {c : Config} {p : PackedMultiset} (h : p.wf c = true) {e e' v : Nat}
    (hv : v < 2 ^ p.k.toNat) (hne : e' ≠ e) : (p.putField e v).countRaw e' = p.countRaw e' :=
  countRaw_congr h (putField_k p e v) fun _ first last =>
    putField_streamBit_outside h hv fun inField => fields_disjoint hne ⟨first, last⟩ inField

/-- A stream bit of a field is the binary digit of the count at its place (20_memory.md R31). -/
theorem countRaw_testBit {c : Config} {p : PackedMultiset} (h : p.wf c = true) {e s : Nat}
    (first : e * p.k.toNat ≤ s) (last : s < e * p.k.toNat + p.k.toNat) :
    (p.countRaw e).testBit (e * p.k.toNat + p.k.toNat - 1 - s) = p.buckets.streamBit s := by
  rw [PackedMultiset.countRaw, readField_testBit _ (wf_k_le h), decide_eq_true (by omega), Bool.true_and]
  congr 1
  omega

/-- Writing the count that is there changes nothing: each bit of the field is written with the digit read from it
(20_memory.md R39 (d)). -/
theorem putField_countRaw_self {c : Config} {p : PackedMultiset} (h : p.wf c = true) {e : Nat} (he : e ≤ p.n.toNat) :
    p.putField e (p.countRaw e) = p := by
  have sameBuckets : (p.putField e (p.countRaw e)).buckets = p.buckets := by
    refine Memory.ext_stream (wf_buckets (putField_wf h he _)) (wf_buckets h) fun s => ?_
    rw [putField_streamBit h (countRaw_lt h e)]
    split_ifs with inField
    · exact countRaw_testBit h inField.1 inField.2
    · rfl
  calc p.putField e (p.countRaw e)
      = { p with buckets := (p.putField e (p.countRaw e)).buckets } := rfl
    _ = p := by rw [sameBuckets]

/-- Settles O40: the laws (a) to (d) of 20_memory.md R39, each a law of one primitive after the other. -/
theorem counterPrimitiveLaws : Obligations.CounterPrimitiveLaws := by
  intro c p e v h he le
  have hv := lt_two_pow_of_le_maxCount le
  exact ⟨countRaw_putField_self h hv,
    fun _ _ other => countRaw_putField_other h hv other,
    fun _ padding => putField_streamBit_behind h he hv padding.1,
    fun _ first second => read_writeField_other (wf_buckets h) _ _ _ first second,
    fun _ outside => putField_streamBit_outside h hv outside,
    putField_countRaw_self h he⟩

end Sys2Proof.Machine
end

section
/-! Two runs of one command (20_memory.md R44): from two states that agree in `BMAX` and in the banks the command names,
it gives the same answer and leaves the same in those banks. -/

namespace Sys2Proof.Machine

/-- Two states show the same port and agree in the named banks. -/
def SameIn (named : List BankId) (t t' : State) : Prop := t'.port = t.port ∧ ∀ j ∈ named, t'.bank j = t.bank j

section TwoRuns

variable {named : List BankId} {s s' : State} (agree : ∀ j ∈ named, s'.bank j = s.bank j)
include agree

/-! ### The ends of a command -/

theorem SameIn.respond (st : Status) (d : Word) : SameIn named (respond st d s) (respond st d s') :=
  ⟨rfl, fun j hj => by rw [respond_bank, respond_bank, agree j hj]⟩

theorem SameIn.raise (e : Status) : SameIn named (raise e s) (raise e s') := .respond agree e 0#32

/-- One bank written alike on both sides, and the same answer. -/
theorem SameIn.write (i : BankId) (b : Bank) :
    SameIn named (Machine.respond .ok 0#32 (s.setBank i b)) (Machine.respond .ok 0#32 (s'.setBank i b)) :=
  .respond (fun j hj => by rw [bank_setBank, bank_setBank, agree j hj]) .ok 0#32

/-! ### The operand forms -/

/-- A named bank is found empty on both sides, or the command goes on with the same contents on both. -/
theorem SameIn.needOccupied {i : BankId} (hi : i ∈ named) {go go' : PackedMultiset → State}
    (rest : ∀ p, SameIn named (go p) (go' p)) :
    SameIn named (needOccupied i s go) (needOccupied i s' go') := by
  have same := agree i hi
  cases hb : s.bank i with
  | empty =>
    rw [needOccupied_empty hb, needOccupied_empty (same.trans hb)]
    exact .raise agree .noinst
  | occupied p =>
    rw [needOccupied_occupied hb, needOccupied_occupied (same.trans hb)]
    exact rest p

/-- A named bank is found occupied on both sides, or the command goes on on both. -/
theorem SameIn.needEmpty {i : BankId} (hi : i ∈ named) {go go' : State} (rest : SameIn named go go') :
    SameIn named (needEmpty i s go) (needEmpty i s' go') := by
  have same := agree i hi
  cases hb : s.bank i with
  | empty =>
    rw [needEmpty_empty hb, needEmpty_empty (same.trans hb)]
    exact rest
  | occupied p =>
    rw [needEmpty_occupied hb, needEmpty_occupied (same.trans hb)]
    exact .raise agree .busy

/-- A filling command with one source: it writes the same multiset on both sides. -/
theorem SameIn.fill_one {rd ra : BankId} (hd : rd ∈ named) (ha : ra ∈ named) (f : PackedMultiset → PackedMultiset) :
    SameIn named (Machine.needOccupied ra s fun a => Machine.needEmpty rd s (fill rd (f a) s))
      (Machine.needOccupied ra s' fun a => Machine.needEmpty rd s' (fill rd (f a) s')) :=
  .needOccupied agree ha fun a => .needEmpty agree hd (.write agree rd (.occupied (f a)))

/-- The one command that looks at `BMAX` finds the same on both sides. -/
theorem SameIn.createIn (config : s'.cfg = s.cfg) (rd : BankId) (k : BitVec 8) (n : BitVec 16) :
    SameIn named (createIn rd k n s) (createIn rd k n s') := by
  rw [Machine.createIn, Machine.createIn, config]
  split_ifs
  · exact .raise agree .width
  · exact .raise agree .capacity
  · exact .write agree rd _

end TwoRuns

/-- A filling command with two sources. -/
theorem SameIn.fill_two {s s' : State} {rd ra rb : BankId} (agree : ∀ j ∈ [rd, ra, rb], s'.bank j = s.bank j)
    (f : PackedMultiset → PackedMultiset → PackedMultiset) :
    SameIn [rd, ra, rb]
      (Machine.needOccupied ra s fun a => Machine.needOccupied rb s fun b => Machine.needEmpty rd s (fill rd (f a b) s))
      (Machine.needOccupied ra s' fun a =>
        Machine.needOccupied rb s' fun b => Machine.needEmpty rd s' (fill rd (f a b) s')) :=
  .needOccupied agree (by simp) fun a => .fill_one agree (by simp) (by simp) (f a)

/-! ### Every command -/

/-- Every command run from the two states answers next states that agree. -/
theorem exec_sameIn (c : Instr) {s s' : State} (config : s'.cfg = s.cfg)
    (agree : ∀ j ∈ namedBanks c, s'.bank j = s.bank j) :
    ∃ t t', exec c s = .next t ∧ exec c s' = .next t' ∧ SameIn (namedBanks c) t t' := by
  cases c with
  | create rd k n => exact ⟨_, _, rfl, rfl, .needEmpty agree (.head _) (.createIn agree config rd k n)⟩
  | free rd => exact ⟨_, _, rfl, rfl, .needOccupied agree (.head _) fun _ => .write agree rd .empty⟩
  | copy rd ra => exact ⟨_, _, rfl, rfl, .fill_one agree (.head _) (.tail _ (.head _)) fun a => a⟩
  | info ra sel =>
    refine ⟨_, _, rfl, rfl, ?_⟩
    rw [agree ra (.head _)]
    split_ifs
    · exact .respond agree .ok _
    · exact .needOccupied agree (.head _) fun _ => .respond agree .ok _
  | count ra e =>
    refine ⟨_, _, rfl, rfl, .needOccupied agree (.head _) fun _ => ?_⟩
    split_ifs
    · exact .raise agree .range
    · exact .respond agree .ok _
  | inc rd e => exact ⟨_, _, rfl, rfl, .needOccupied agree (.head _) fun _ => .write agree rd _⟩
  | compl rd ra => exact ⟨_, _, rfl, rfl, .fill_one agree (.head _) (.tail _ (.head _)) complOf⟩
  | isect rd ra rb => exact ⟨_, _, rfl, rfl, .fill_two agree isectOf⟩
  | isectl rd ra rb => exact ⟨_, _, rfl, rfl, .fill_two agree isectlOf⟩
  | diff rd ra rb => exact ⟨_, _, rfl, rfl, .fill_two agree diffOf⟩
  | rdb ra idx =>
    refine ⟨_, _, rfl, rfl, .needOccupied agree (.head _) fun _ => ?_⟩
    split_ifs
    · exact .raise agree .range
    · exact .respond agree .ok _
  | wrb rd idx byte =>
    refine ⟨_, _, rfl, rfl, .needOccupied agree (.head _) fun _ => ?_⟩
    split_ifs
    · exact .raise agree .range
    · exact .write agree rd _

/-- Settles O26: the two answers of `exec_sameIn` are the two given. -/
theorem onlyNamedBanksMatter : Obligations.OnlyNamedBanksMatter := by
  intro c s s' t t' config agree h h'
  obtain ⟨u, u', hu, hu', same⟩ := exec_sameIn c config agree
  rw [hu] at h
  rw [hu'] at h'
  cases h
  cases h'
  exact same

end Sys2Proof.Machine
end

section
/-! The decoder against the table of 30_encoding.md R54: the row that accepts a word fixes the opcode and the
must-be-zero bits, the fields of R52 fix the rest, so decoding and encoding undo each other. -/

namespace Sys2Proof

/-! ### What a row reads and what it accepts -/

/-- The command a row of the table reads from the fields of a word, whether or not it accepts the word (30_encoding.md
R52, R53). -/
inductive RowReads (w : Word) : EncRow → Instr → Prop where
  | create : RowReads w rowCreate (.create (.ofBits (rdField w)) (f8Field w) (f16Field w))
  | free : RowReads w rowFree (.free (.ofBits (rdField w)))
  | copy : RowReads w rowCopy (.copy (.ofBits (rdField w)) (.ofBits (raField w)))
  | info : RowReads w rowInfo (.info (.ofBits (raField w)) (.ofBits (subField w)))
  | count : RowReads w rowCount (.count (.ofBits (raField w)) (f16Field w))
  | inc : RowReads w rowInc (.inc (.ofBits (rdField w)) (f16Field w))
  | compl : RowReads w rowCompl (.compl (.ofBits (rdField w)) (.ofBits (raField w)))
  | isect : RowReads w rowIsect (.isect (.ofBits (rdField w)) (.ofBits (raField w)) (.ofBits (subField w)))
  | isectl : RowReads w rowIsectl (.isectl (.ofBits (rdField w)) (.ofBits (raField w)) (.ofBits (subField w)))
  | diff : RowReads w rowDiff (.diff (.ofBits (rdField w)) (.ofBits (raField w)) (.ofBits (subField w)))
  | rdb : RowReads w rowRdb (.rdb (.ofBits (raField w)) (f16Field w))
  | wrb : RowReads w rowWrb (.wrb (.ofBits (rdField w)) (f16Field w) (f8Field w))

theorem RowReads.row_eq {w : Word} {r : EncRow} {i : Instr} (h : RowReads w r i) : i.row = r := by
  cases h <;> rfl

theorem RowReads.mem {w : Word} {r : EncRow} {i : Instr} (h : RowReads w r i) : r ∈ encodingTable := by
  cases h <;> decide

/-- Every row reads a command from every word. -/
theorem exists_rowReads (w : Word) {r : EncRow} (h : r ∈ encodingTable) : ∃ i, RowReads w r i := by
  simp only [encodingTable, List.mem_cons, List.not_mem_nil, or_false] at h
  rcases h with rfl | rfl | rfl | rfl | rfl | rfl | rfl | rfl | rfl | rfl | rfl | rfl
  exacts [⟨_, .create⟩, ⟨_, .free⟩, ⟨_, .copy⟩, ⟨_, .info⟩, ⟨_, .count⟩, ⟨_, .inc⟩, ⟨_, .compl⟩, ⟨_, .isect⟩,
    ⟨_, .isectl⟩, ⟨_, .diff⟩, ⟨_, .rdb⟩, ⟨_, .wrb⟩]

/-- The row of a command reads the command back from its word. -/
theorem rowReads_encode (i : Instr) : RowReads (encode i) i.row i := by
  cases i with
  | create rd k n => simpa [encode, Instr.row] using RowReads.create (w := encode (.create rd k n))
  | free rd => simpa [encode, Instr.row] using RowReads.free (w := encode (.free rd))
  | copy rd ra => simpa [encode, Instr.row] using RowReads.copy (w := encode (.copy rd ra))
  | info ra sel => simpa [encode, Instr.row] using RowReads.info (w := encode (.info ra sel))
  | count ra e => simpa [encode, Instr.row] using RowReads.count (w := encode (.count ra e))
  | inc rd e => simpa [encode, Instr.row] using RowReads.inc (w := encode (.inc rd e))
  | compl rd ra => simpa [encode, Instr.row] using RowReads.compl (w := encode (.compl rd ra))
  | isect rd ra rb => simpa [encode, Instr.row] using RowReads.isect (w := encode (.isect rd ra rb))
  | isectl rd ra rb => simpa [encode, Instr.row] using RowReads.isectl (w := encode (.isectl rd ra rb))
  | diff rd ra rb => simpa [encode, Instr.row] using RowReads.diff (w := encode (.diff rd ra rb))
  | rdb ra idx => simpa [encode, Instr.row] using RowReads.rdb (w := encode (.rdb ra idx))
  | wrb rd idx byte => simpa [encode, Instr.row] using RowReads.wrb (w := encode (.wrb rd idx byte))

/-- The row of every command accepts its word. -/
theorem row_accepts_encode (i : Instr) : i.row.accepts (encode i) = true := by
  cases i with
  | create rd k n => exact Laws.EncodeMatches.create rd k n
  | free rd => exact Laws.EncodeMatches.free rd
  | copy rd ra => exact Laws.EncodeMatches.copy rd ra
  | info ra sel => exact Laws.EncodeMatches.info ra sel
  | count ra e => exact Laws.EncodeMatches.count ra e
  | inc rd e => exact Laws.EncodeMatches.inc rd e
  | compl rd ra => exact Laws.EncodeMatches.compl rd ra
  | isect rd ra rb => exact Laws.EncodeMatches.isect rd ra rb
  | isectl rd ra rb => exact Laws.EncodeMatches.isectl rd ra rb
  | diff rd ra rb => exact Laws.EncodeMatches.diff rd ra rb
  | rdb ra idx => exact Laws.EncodeMatches.rdb ra idx
  | wrb rd idx byte => exact Laws.EncodeMatches.wrb rd idx byte

/-! ### The bits a row fixes -/

theorem and_eq_self_of_and_not {n : Nat} {x k : BitVec n} (h : x &&& ~~~k = 0#n) : x &&& k = x := by
  calc x &&& k = (x &&& k) ||| (x &&& ~~~k) := by rw [h, BitVec.or_zero]
    _ = x := by ext j hj; cases hk : k[j] <;> simp [hk]

/-- A word that a row accepts is the row's opcode with the bits of its fields that the row leaves free, `k1` to `k4`. -/
theorem packWord_of_accepts {r : EncRow} {w : Word} (h : r.accepts w = true) (op : BitVec 4) (k1 k2 : BitVec 2)
    (k3 : BitVec 8) (k4 : BitVec 16) (mask : r.mask = packWord 0xF#4 (~~~k1) (~~~k2) (~~~k3) (~~~k4))
    (bits : r.bits = packWord op 0#2 0#2 0#8 0#16) :
    packWord op (rdField w &&& k1) (raField w &&& k2) (f8Field w &&& k3) (f16Field w &&& k4) = w := by
  rw [EncRow.accepts, beq_iff_eq, mask, bits, ← packWord_fields w, packWord_and] at h
  have hop : opField w &&& 0xF#4 = op := by simpa using congrArg opField h
  have hrd : rdField w &&& ~~~k1 = 0#2 := by simpa using congrArg rdField h
  have hra : raField w &&& ~~~k2 = 0#2 := by simpa using congrArg raField h
  have hf8 : f8Field w &&& ~~~k3 = 0#8 := by simpa using congrArg f8Field h
  have hf16 : f16Field w &&& ~~~k4 = 0#16 := by simpa using congrArg f16Field h
  have whole : opField w &&& 0xF#4 = opField w := BitVec.and_allOnes
  rw [and_eq_self_of_and_not hrd, and_eq_self_of_and_not hra, and_eq_self_of_and_not hf8, and_eq_self_of_and_not hf16,
    ← hop, whole, packWord_fields]

/-! A field kept whole, and the two bits of `f8` that name `rb` or `sel`. -/

@[simp] theorem and_three (v : BitVec 2) : v &&& 3#2 = v := BitVec.and_allOnes
@[simp] theorem and_ff (v : BitVec 8) : v &&& 0xFF#8 = v := BitVec.and_allOnes
@[simp] theorem and_ffff (v : BitVec 16) : v &&& 0xFFFF#16 = v := BitVec.and_allOnes

theorem f8Field_and_three (w : Word) : f8Field w &&& 3#8 = subImm (subField w) := by
  rw [subField_eq]
  generalize f8Field w = v
  revert v
  decide

/-- The command a row reads from a word it accepts has that word: the bits `packWord_of_accepts` keeps are those the
encoder fills in. -/
theorem RowReads.encode_eq {w : Word} {r : EncRow} {i : Instr} (reads : RowReads w r i) (h : r.accepts w = true) :
    encode i = w := by
  cases reads with
  | create =>
    simpa [encode, BankId.bits_ofBits] using
      packWord_of_accepts h 1#4 3#2 0#2 0xFF#8 0xFFFF#16 rfl rfl
  | free =>
    simpa [encode, BankId.bits_ofBits] using
      packWord_of_accepts h 2#4 3#2 0#2 0#8 0#16 rfl rfl
  | copy =>
    simpa [encode, BankId.bits_ofBits] using
      packWord_of_accepts h 3#4 3#2 3#2 0#8 0#16 rfl rfl
  | info =>
    simpa [encode, BankId.bits_ofBits, InfoSel.bits_ofBits, f8Field_and_three] using
      packWord_of_accepts h 4#4 0#2 3#2 3#8 0#16 rfl rfl
  | count =>
    simpa [encode, BankId.bits_ofBits] using
      packWord_of_accepts h 5#4 0#2 3#2 0#8 0xFFFF#16 rfl rfl
  | inc =>
    simpa [encode, BankId.bits_ofBits] using
      packWord_of_accepts h 6#4 3#2 0#2 0#8 0xFFFF#16 rfl rfl
  | compl =>
    simpa [encode, BankId.bits_ofBits] using
      packWord_of_accepts h 7#4 3#2 3#2 0#8 0#16 rfl rfl
  | isect =>
    simpa [encode, BankId.bits_ofBits, f8Field_and_three] using
      packWord_of_accepts h 8#4 3#2 3#2 3#8 0#16 rfl rfl
  | isectl =>
    simpa [encode, BankId.bits_ofBits, f8Field_and_three] using
      packWord_of_accepts h 0x9#4 3#2 3#2 3#8 0#16 rfl rfl
  | diff =>
    simpa [encode, BankId.bits_ofBits, f8Field_and_three] using
      packWord_of_accepts h 0xA#4 3#2 3#2 3#8 0#16 rfl rfl
  | rdb =>
    simpa [encode, BankId.bits_ofBits] using
      packWord_of_accepts h 0xB#4 0#2 3#2 0#8 0xFFFF#16 rfl rfl
  | wrb =>
    simpa [encode, BankId.bits_ofBits] using
      packWord_of_accepts h 0xC#4 3#2 0#2 0xFF#8 0xFFFF#16 rfl rfl

/-! ### The opcode picks the row -/

/-- A word that a row accepts has the row's opcode: every mask covers `op`. -/
theorem opField_of_accepts {w : Word} {r : EncRow} (hr : r ∈ encodingTable) (h : r.accepts w = true) :
    opField r.bits = opField w := by
  have covered : ∀ r ∈ encodingTable, opField r.mask = BitVec.allOnes 4 := by decide
  rw [EncRow.accepts, beq_iff_eq] at h
  rw [← h]
  calc opField (w &&& r.mask) = opField w &&& opField r.mask := BitVec.extractLsb'_and
    _ = opField w := by rw [covered r hr, BitVec.and_allOnes]

/-- Every opcode is reserved or that of a row (30_encoding.md R58). -/
theorem reservedOp_or_row (w : Word) : Machine.reservedOp w ∨ ∃ r ∈ encodingTable, opField r.bits = opField w := by
  unfold Machine.reservedOp
  generalize opField w = v
  revert v
  decide

/-- Two rows with one opcode are one row. -/
theorem row_eq_of_opField {r r' : EncRow} (hr : r ∈ encodingTable) (hr' : r' ∈ encodingTable)
    (h : opField r.bits = opField r'.bits) : r = r' := by
  have distinct : ∀ r ∈ encodingTable, ∀ r' ∈ encodingTable, opField r.bits = opField r'.bits → r = r' := by decide
  exact distinct r hr r' hr' h

/-! ### The decoder -/

theorem select_ok_iff {r : EncRow} {w : Word} {i j : Instr} : r.select w i = .ok j ↔ r.accepts w = true ∧ i = j := by
  rw [EncRow.select]
  split_ifs with h <;> simp [h]

/-- The decoder asks the row that has the word's opcode. -/
theorem decode_eq_select {w : Word} {r : EncRow} {i : Instr} (reads : RowReads w r i)
    (hop : opField r.bits = opField w) : decode w = r.select w i := by
  cases reads <;> rw [decode, ← hop] <;> rfl

theorem decode_of_reservedOp {w : Word} (h : Machine.reservedOp w) : decode w = .error .reservedOpcode := by
  rcases h with h | h | h | h <;> rw [decode, h] <;> rfl

/-- A word decodes to what a row reads from it and accepts, and to nothing else (30_encoding.md R54). -/
theorem decode_ok_iff {w : Word} {i : Instr} : decode w = .ok i ↔ ∃ r, RowReads w r i ∧ r.accepts w = true := by
  constructor
  · intro h
    rcases reservedOp_or_row w with reserved | ⟨r, hr, hop⟩
    · rw [decode_of_reservedOp reserved] at h
      cases h
    · obtain ⟨j, reads⟩ := exists_rowReads w hr
      rw [decode_eq_select reads hop, select_ok_iff] at h
      obtain ⟨accepts, rfl⟩ := h
      exact ⟨r, reads, accepts⟩
  · rintro ⟨r, reads, accepts⟩
    rw [decode_eq_select reads (opField_of_accepts reads.mem accepts)]
    exact select_ok_iff.2 ⟨accepts, rfl⟩

/-- Settles O1: the row of a command reads it back from its word and accepts the word. -/
theorem decodeOfEncodeIsTheCommand : Obligations.DecodeOfEncodeIsTheCommand :=
  fun i _ => decode_ok_iff.2 ⟨i.row, rowReads_encode i, row_accepts_encode i⟩

/-- Settles O2: the word decoded through a row that read the command from it and accepts it. -/
theorem encodeOfDecodeIsTheWord : Obligations.EncodeOfDecodeIsTheWord := by
  intro w i h
  obtain ⟨r, reads, accepts⟩ := decode_ok_iff.1 h
  exact reads.encode_eq accepts

/-- Settles O3: the row read the command, so it is the command's row. -/
theorem rowAcceptsExactlyItsCommand : Obligations.RowAcceptsExactlyItsCommand := by
  intro w r hr
  constructor
  · intro accepts
    obtain ⟨i, reads⟩ := exists_rowReads w hr
    exact ⟨i, decode_ok_iff.2 ⟨r, reads, accepts⟩, reads.row_eq⟩
  · rintro ⟨i, h, rfl⟩
    obtain ⟨r, reads, accepts⟩ := decode_ok_iff.1 h
    rwa [reads.row_eq]

/-- Settles O4: both rows have the opcode of the word. -/
theorem noTwoRowsAcceptOneWord : Obligations.NoTwoRowsAcceptOneWord :=
  fun _ _ _ hr hr' h h' =>
    row_eq_of_opField hr hr' ((opField_of_accepts hr h).trans (opField_of_accepts hr' h').symm)

/-- Settles O5, by running the decoder. -/
theorem writtenWordsDecode : Obligations.WrittenWordsDecode := by
  unfold Obligations.WrittenWordsDecode
  decide

/-! ### Illegal words (30_encoding.md R58) -/

/-- An illegal word decodes to no command: its opcode is reserved, or the one row with its opcode does not accept it. -/
theorem decode_of_illegalWord {w : Word} (h : Machine.illegalWord w) : ∃ x, decode w = .error x := by
  rcases h with reserved | ⟨r, hr, hop, refused⟩
  · exact ⟨_, decode_of_reservedOp reserved⟩
  · obtain ⟨i, reads⟩ := exists_rowReads w hr
    exact ⟨.mustBeZeroBitSet, by rw [decode_eq_select reads hop, EncRow.select, refused]; rfl⟩

/-- There is no third kind of word: the row with the word's opcode accepts it or makes it illegal. -/
theorem illegalWord_or_decodes (w : Word) : Machine.illegalWord w ∨ ∃ i, decode w = .ok i := by
  rcases reservedOp_or_row w with reserved | ⟨r, hr, hop⟩
  · exact .inl (.inl reserved)
  · cases accepts : r.accepts w with
    | false => exact .inl (.inr ⟨r, hr, hop, accepts⟩)
    | true =>
      obtain ⟨i, reads⟩ := exists_rowReads w hr
      exact .inr ⟨i, decode_ok_iff.2 ⟨r, reads, accepts⟩⟩

/-- Settles O6: an illegal word does not decode, and a word that is not illegal does. -/
theorem illegalWordsAreAnswered : Obligations.IllegalWordsAreAnswered := by
  refine ⟨fun s w illegal => ?_, .inl rfl, .inr (.inr (.inr rfl)), illegalWord_or_decodes⟩
  obtain ⟨x, h⟩ := decode_of_illegalWord illegal
  rw [Machine.runWord, h]
  rfl

end Sys2Proof
end

section
/-! The assembler against the encoder (30_encoding.md R63, R64): a line in range is the line of its command, and the
number the assembler packs is that of the command's word. -/

namespace Sys2Proof

open Machine

/-! ### A line and its command -/

theorem ofBits_num (i : BankId) : BankId.ofBits (BitVec.ofNat 2 i.num) = i := BankId.ofBits_bits i
theorem ofBits_selNum (q : InfoSel) : InfoSel.ofBits (BitVec.ofNat 2 q.num) = q := InfoSel.ofBits_bits q

theorem buildInstr_toAsm (i : Instr) : buildInstr i.toAsm = i := by
  cases i <;> simp [Instr.toAsm, buildInstr, ofBits_num, ofBits_selNum]

/-- The operand types leave no command whose line is out of range. -/
theorem instr_wf (i : Instr) : i.wf = true := by
  cases i with
  | create rd k n => exact Laws.OperandsInRange.create rd k n
  | free rd => exact Laws.OperandsInRange.free rd
  | copy rd ra => exact Laws.OperandsInRange.copy rd ra
  | info ra sel => exact Laws.OperandsInRange.info ra sel
  | count ra e => exact Laws.OperandsInRange.count ra e
  | inc rd e => exact Laws.OperandsInRange.inc rd e
  | compl rd ra => exact Laws.OperandsInRange.compl rd ra
  | isect rd ra rb => exact Laws.OperandsInRange.isect rd ra rb
  | isectl rd ra rb => exact Laws.OperandsInRange.isectl rd ra rb
  | diff rd ra rb => exact Laws.OperandsInRange.diff rd ra rb
  | rdb ra idx => exact Laws.OperandsInRange.rdb ra idx
  | wrb rd idx byte => exact Laws.OperandsInRange.wrb rd idx byte

/-- Settles O8: the line of a command is in range, and reading it undoes printing it. -/
theorem assemblerLineGivesBackTheCommand : Obligations.AssemblerLineGivesBackTheCommand := by
  intro i
  have inRange : i.toAsm.wf = true := instr_wf i
  rw [asmInstr, if_pos inRange, buildInstr_toAsm]

theorem num_ofBits {d : Nat} (h : bankInRange d = true) : (BankId.ofBits (BitVec.ofNat 2 d)).num = d := by
  have : d < 4 := of_decide_eq_true h
  interval_cases d <;> rfl

theorem selNum_ofBits {v : Nat} (h : selInRange v = true) : (InfoSel.ofBits (BitVec.ofNat 2 v)).num = v := by
  have : v < 4 := of_decide_eq_true h
  interval_cases v <;> rfl

theorem toNat_imm8 {v : Nat} (h : imm8InRange v = true) : (BitVec.ofNat 8 v).toNat = v :=
  Nat.mod_eq_of_lt (of_decide_eq_true h)

theorem toNat_imm16 {v : Nat} (h : imm16InRange v = true) : (BitVec.ofNat 16 v).toNat = v :=
  Nat.mod_eq_of_lt (of_decide_eq_true h)

/-- A line in range is the line of the command it stands for. -/
theorem toAsm_buildInstr {a : Asm} (h : a.wf = true) : (buildInstr a).toAsm = a := by
  cases a <;> simp only [Asm.wf, Bool.and_eq_true] at h <;>
    simp only [buildInstr, Instr.toAsm, num_ofBits, selNum_ofBits, toNat_imm8, toNat_imm16, h]

/-! ### The word of a line -/

/-- The number of a word is its fields in the places of 30_encoding.md R64. -/
theorem packWord_toNat (op : BitVec 4) (rd ra : BitVec 2) (f8 : BitVec 8) (f16 : BitVec 16) :
    (packWord op rd ra f8 f16).toNat = wordNumber op.toNat rd.toNat ra.toNat f8.toNat f16.toNat := by
  simp only [packWord, wordNumber, BitVec.toNat_append, Nat.shiftLeft_or_distrib, ← Nat.shiftLeft_add]

theorem subImm_toNat (v : BitVec 2) : (subImm v).toNat = v.toNat := by revert v; decide

theorem BankId.bits_toNat (i : BankId) : i.bits.toNat = i.num := by cases i <;> rfl
theorem InfoSel.bits_toNat (q : InfoSel) : q.bits.toNat = q.num := by cases q <;> rfl

theorem encode_toNat (i : Instr) : (encode i).toNat = asmNumber i.toAsm := by
  cases i <;> simp [encode, Instr.toAsm, asmNumber, packWord_toNat, subImm_toNat, BankId.bits_toNat, InfoSel.bits_toNat]

/-- Settles O7: a line in range is printed by its command, whose word has the number the assembler packs. -/
theorem assembledWordIsTheEncoding : Obligations.AssembledWordIsTheEncoding := by
  intro a
  constructor
  · intro inRange
    have number : asmNumber a = (encode (buildInstr a)).toNat := by rw [encode_toNat, toAsm_buildInstr inRange]
    refine ⟨buildInstr a, if_pos inRange, ?_⟩
    rw [assemble, if_pos inRange, number, BitVec.ofNat_toNat, BitVec.setWidth_eq]
  · intro outOfRange
    simp [asmInstr, assemble, outOfRange]

end Sys2Proof
end

section
/-! The port and the step (30_encoding.md R51): what one clock edge without reset does in each state of the port, and
the whole transaction of a command put together from three such edges. -/

namespace Sys2Proof.Machine

/-! ### One edge without reset -/

section Edge

variable {s : State} (noReset : (sample s).rst = false)
include noReset

theorem step_accept (idle : s.port = .idle) (presented : (sample s).cmdValid = true) :
    step s = .next (acceptWord (sample s).cmdWord (advance s)) := by
  simp [step, clockEdge, noReset, idle, presented]

theorem step_idle (idle : s.port = .idle) (absent : (sample s).cmdValid = false) : step s = .next (advance s) := by
  simp [step, clockEdge, noReset, idle, absent]

theorem step_execute {w : Word} (executing : s.port = .executing w) : step s = runWord w (advance s) := by
  simp [step, clockEdge, noReset, executing]

theorem step_hold {r : Response} (pending : s.port = .responding r) (untaken : (sample s).rspReady = false) :
    step s = .next (advance s) := by
  simp [step, clockEdge, noReset, pending, untaken]

theorem step_take {r : Response} (pending : s.port = .responding r) (taken : (sample s).rspReady = true) :
    step s = .next (takeResponse (advance s)) := by
  simp [step, clockEdge, noReset, pending, taken]

end Edge

theorem runWord_of_decode {w : Word} {c : Instr} (h : decode w = .ok c) (s : State) : runWord w s = exec c s := by
  rw [runWord, h]

theorem runWord_of_error {w : Word} {x : DecodeError} (h : decode w = .error x) (s : State) :
    runWord w s = .next (raise .illegal s) := by
  rw [runWord, h]

/-- Settles O9: a command in flight is run at the state past the edge. -/
theorem stepRunsTheDecodedCommand : Obligations.StepRunsTheDecodedCommand := by
  intro s w executing noReset
  rw [step_execute noReset executing]
  exact ⟨fun i h => runWord_of_decode h _, fun x h => runWord_of_error h _⟩

theorem decode_of_decodeTableWord {nbits w : Nat} {i : Instr} (h : decodeTableWord nbits w = some i) :
    decode (tableWord nbits w) = .ok i := by
  rw [decodeTableWord] at h
  split at h
  · next j hj => rwa [← Option.some.inj h]
  · cases h

/-- Settles O10: the step uses up the edge with all pins 0 that `placeWord` puts in front of the host's list. -/
theorem placedWordRunsNext : Obligations.PlacedWordRunsNext := by
  intro s nbits w i h
  have executes := step_execute (s := placeWord (tableWord nbits w) s) rfl rfl
  rw [State.withFetchWord, executes]
  exact runWord_of_decode (decode_of_decodeTableWord h) _

/-! ### The handshake -/

theorem cmdReady_iff {s : State} : cmdReady s = true ↔ s.port = .idle := decide_eq_true_iff

theorem rspValid_iff {s : State} : rspValid s = true ↔ ∃ r, s.port = .responding r := by
  rw [rspValid, pendingResponse]
  cases s.port <;> simp

/-- Settles O11, edge by edge. -/
theorem handshakeFollowsTheProtocol : Obligations.HandshakeFollowsTheProtocol := fun _ noReset =>
  ⟨cmdReady_iff, rspValid_iff, step_accept noReset, step_idle noReset, fun _ => step_hold noReset,
    fun _ => step_take noReset⟩

/-! ### The whole transaction -/

theorem destination_mem_namedBanks {c : Instr} {j : BankId} (h : destination c = some j) : j ∈ namedBanks c := by
  cases c <;> cases h <;> exact .head _

/-- What a command does depends on the banks and `BMAX` alone: the port before it and what the host will drive do not
matter, and it hands the latter on. -/
theorem exec_of_banksKept {c : Instr} {s s' t : State} (config : s'.cfg = s.cfg) (banks : banksKept s s')
    (h : exec c s = .next t) : exec c s' = .next { t with host := s'.host } := by
  obtain ⟨u, u', hu, hu', port, named⟩ := exec_sameIn c config fun j _ => banks j
  obtain rfl : u = t := by rw [hu] at h; cases h; rfl
  obtain ⟨hc, -⟩ := sameEnvironment_of_exec hu
  obtain ⟨hc', hh'⟩ := sameEnvironment_of_exec hu'
  have everyBank : ∀ j, u'.bank j = u.bank j := by
    intro j
    by_cases hj : j ∈ namedBanks c
    · exact named j hj
    · have other : destination c ≠ some j := fun hd => hj (destination_mem_namedBanks hd)
      rw [bank_of_exec_of_ne_destination hu' other, bank_of_exec_of_ne_destination hu other, banks j]
  have result : u' = { u with host := s'.host } := state_ext (by rw [hc', config, hc]) everyBank port hh'
  rw [hu', result]

/-- Every command ends with a response (30_encoding.md R51 (d)). -/
theorem exec_responds (c : Instr) (s : State) : ∃ t a, exec c s = .next t ∧ t.port = .responding a := by
  obtain ⟨t, ht, effect⟩ := exec_effect c s
  cases effect with
  | error e _ => exact ⟨_, _, ht, rfl⟩
  | answer d => exact ⟨_, _, ht, rfl⟩
  | write rd b _ => exact ⟨_, _, ht, rfl⟩

/-- Settles O14: an edge that accepts, one that executes and one that takes. The command answers at the second as it
does at the first, since the banks are the same. -/
theorem wholeTransaction : Obligations.WholeTransaction := by
  intro s p q r rest i idle host hp hq hr presented ready decodes
  obtain ⟨t, a, ht, answered⟩ := exec_responds i s
  refine ⟨t, a, ht, answered, ?_⟩
  have accepted : step s = .next { s with port := .executing p.cmdWord, host := q :: r :: rest } := by
    obtain ⟨rfl, tail⟩ : p = sample s ∧ s.host.tail = q :: r :: rest := by simp [sample, host]
    rw [step_accept hp idle presented, ← tail]
    rfl
  have executed : step { s with port := .executing p.cmdWord, host := q :: r :: rest } =
      .next { t with host := r :: rest } := by
    rw [step_execute (by exact hq) rfl, runWord_of_decode decodes]
    exact exec_of_banksKept (s := s) rfl (fun j => by cases j <;> rfl) ht
  have taken : step { t with host := r :: rest } = .next { t with port := .idle, host := rest } :=
    step_take hr answered ready
  rw [run_next accepted, run_next executed, run_next taken]
  rfl

end Sys2Proof.Machine
end

section
/-! DUMP and LOAD (30_encoding.md R65, R66): what each command the host issues answers, and the image and the bank that
come of the sequence. -/

namespace Sys2Proof.Machine

/-! ### One command issued -/

theorem issue_of_respond {c : Instr} {s t : State} {st : Status} {d : Word} (h : exec c s = .next (respond st d t)) :
    issue c s = some (⟨st, d⟩, takeResponse t) := by
  rw [issue, h]
  rfl

theorem issue_info {a : BankId} {s : State} {p : PackedMultiset} (hp : s.bank a = .occupied p) {sel : InfoSel}
    (h : sel ≠ .valid) : issue (.info a sel) s = some (⟨.ok, infoField p sel⟩, takeResponse s) :=
  issue_of_respond (by simp only [exec, execInfo, if_neg h, needOccupied_occupied hp])

theorem issue_info_empty {a : BankId} {s : State} (he : s.bank a = .empty) {sel : InfoSel} (h : sel ≠ .valid) :
    issue (.info a sel) s = some (⟨.noinst, 0#32⟩, takeResponse s) :=
  issue_of_respond (by simp only [exec, execInfo, if_neg h, needOccupied_empty he, raise])

theorem issue_info_valid (d : BankId) (s : State) :
    issue (.info d .valid) s = some (⟨.ok, dataOf (s.bank d).valid.toNat⟩, takeResponse s) :=
  issue_of_respond rfl

theorem issue_rdb {a : BankId} {s : State} {p : PackedMultiset} (hp : s.bank a = .occupied p) {idx : BitVec 16}
    (h : idx.toNat < p.bc.toNat) :
    issue (.rdb a idx) s = some (⟨.ok, dataOf (p.buckets.read idx.toNat).toNat⟩, takeResponse s) :=
  issue_of_respond (by simp only [exec, execRdb, needOccupied_occupied hp, if_neg (Nat.not_le.2 h)])

theorem issue_free {d : BankId} {s : State} {p : PackedMultiset} (hp : s.bank d = .occupied p) :
    issue (.free d) s = some (⟨.ok, 0#32⟩, takeResponse (s.setBank d .empty)) :=
  issue_of_respond (by simp only [exec, execFree, needOccupied_occupied hp])

theorem issue_create {d : BankId} {s : State} (he : s.bank d = .empty) {k : BitVec 8} {n : BitVec 16}
    (h1 : 1 ≤ k.toNat) (h8 : k.toNat ≤ 8) (fits : bucketsCount n.toNat k.toNat ≤ s.cfg.bmax) :
    issue (.create d k n) s =
      some (⟨.ok, 0#32⟩, takeResponse (s.setBank d (.occupied (newInst n (k.setWidth 4))))) :=
  issue_of_respond (by simp only [exec, execCreate, needEmpty_empty he, createIn_fill h1 h8 fits, fill])

theorem issue_wrb {d : BankId} {s : State} {p : PackedMultiset} (hp : s.bank d = .occupied p) {idx : BitVec 16}
    (y : Byte) (h : idx.toNat < p.bc.toNat) :
    issue (.wrb d idx y) s = some (⟨.ok, 0#32⟩,
      takeResponse (s.setBank d (.occupied { p with buckets := p.buckets.write idx.toNat y }))) :=
  issue_of_respond (by simp only [exec, execWrb, needOccupied_occupied hp, if_neg (Nat.not_le.2 h)])

/-! ### States between the commands -/

theorem takeResponse_of_idle {s : State} (h : s.port = .idle) : takeResponse s = s := by
  rw [takeResponse, ← h]

theorem takeResponse_setBank (s : State) (i : BankId) (b : Bank) :
    takeResponse (s.setBank i b) = (takeResponse s).setBank i b := by
  cases i <;> rfl

@[simp] theorem takeResponse_takeResponse (s : State) : takeResponse (takeResponse s) = takeResponse s := rfl

@[simp] theorem setBank_setBank (s : State) (i : BankId) (b b' : Bank) :
    (s.setBank i b).setBank i b' = s.setBank i b' := by
  cases i <;> rfl

/-! ### The numbers of a response -/

theorem dataOf_toNat {v : Nat} (h : v < 2 ^ 32) : (dataOf v).toNat = v := Nat.mod_eq_of_lt h

/-- A field of at most 32 bits comes back as it went into the response. -/
theorem okData_dataOf {w : Nat} (hw : w ≤ 32) (v : BitVec w) : okData ⟨.ok, dataOf v.toNat⟩ = some v.toNat := by
  have small : v.toNat < 2 ^ 32 := Nat.lt_of_lt_of_le v.isLt (Nat.pow_le_pow_right (by decide) hw)
  rw [okData, if_pos rfl, dataOf_toNat small]

/-- Every index into a buffer fits the operand of RDB and WRB. -/
theorem index_toNat {p : PackedMultiset} (small : p.bc.toNat ≤ 65536) {idx : Nat} (h : idx < p.bc.toNat) :
    (BitVec.ofNat 16 idx).toNat = idx := Nat.mod_eq_of_lt (Nat.lt_of_lt_of_le h small)

theorem wf_bc_le_limit {c : Config} {p : PackedMultiset} (h : p.wf c = true) : p.bc.toNat ≤ 65536 := by
  rw [wf_bc h]
  exact bucketsCount_le_limit (Nat.le_of_lt_succ p.n.isLt) (wf_k_le h)

/-! ### DUMP -/

/-- RDB index after index yields the bytes in order and changes nothing. -/
theorem dumpBytes_eq {a : BankId} {s : State} {p : PackedMultiset} (hp : s.bank a = .occupied p)
    (small : p.bc.toNat ≤ 65536) (idle : s.port = .idle) (count idx : Nat) (inside : idx + count ≤ p.bc.toNat) :
    dumpBytes a count idx s = some ((List.range' idx count).map p.buckets.read, s) := by
  induction count generalizing idx with
  | zero => rfl
  | succ count ih =>
    have here : (BitVec.ofNat 16 idx).toNat = idx := index_toNat small (by omega)
    have byte := issue_rdb hp (idx := BitVec.ofNat 16 idx) (by omega)
    rw [here, takeResponse_of_idle idle] at byte
    simp [dumpBytes, byte, okData_dataOf, ih (idx + 1) (by omega), List.range'_succ]

/-- The image of what a bank holds: the three sizes and the bytes in order (30_encoding.md R65). -/
def PackedMultiset.image (p : PackedMultiset) : Image :=
  ⟨p.n.toNat, p.k.toNat, p.bc.toNat, (List.range p.bc.toNat).map p.buckets.read⟩

theorem dump_occupied {a : BankId} {s : State} {c : Config} {p : PackedMultiset} (hp : s.bank a = .occupied p)
    (hwf : p.wf c = true) : dump a s = some (p.image, takeResponse s) := by
  have idleBank : (takeResponse s).bank a = .occupied p := by rw [takeResponse_bank, hp]
  have bytes := dumpBytes_eq idleBank (wf_bc_le_limit hwf) rfl p.bc.toNat 0 (by omega)
  rw [← List.range_eq_range'] at bytes
  simp [dump, issue_info hp, issue_info idleBank, infoField, okData_dataOf, bytes, PackedMultiset.image]

/-- Settles O58: the three sizes and then the bytes; on an empty bank the first INFO is an error. -/
theorem dumpReadsTheInstance : Obligations.DumpReadsTheInstance := by
  refine fun s a => ⟨fun p hp hwf => dump_occupied hp hwf, fun he => ?_⟩
  simp [dump, issue_info_empty he, okData]

/-! ### Bytes written one after another -/

/-- The buffer after the bytes of a list are written, the first at address `a`. -/
def Memory.writeList (m : Memory) (a : Nat) : List Byte → Memory
  | [] => m
  | y :: ys => Memory.writeList (m.write a y) (a + 1) ys

theorem Memory.wf_writeList {m : Memory} (h : m.wf = true) (a : Nat) (ys : List Byte) :
    (m.writeList a ys).wf = true := by
  induction ys generalizing m a with
  | nil => exact h
  | cons y ys ih => exact ih (Memory.wf_write h a y) (a + 1)

/-- Where another buffer's bytes were written it reads as that one, elsewhere as before. -/
theorem Memory.read_writeList_range {m : Memory} (h : m.wf = true) (m' : Memory) (a c b : Nat) :
    (m.writeList a ((List.range' a c).map m'.read)).read b = if a ≤ b ∧ b < a + c then m'.read b else m.read b := by
  induction c generalizing m a with
  | zero => rw [if_neg (by omega)]; rfl
  | succ c ih =>
    rw [List.range'_succ, List.map_cons, Memory.writeList, ih (Memory.wf_write h a _), Memory.read_write h]
    by_cases hb : b = a
    · subst hb
      rw [if_neg (by omega), if_pos rfl, if_pos (by omega)]
    · rw [if_neg hb]
      exact if_congr (by omega) rfl rfl

/-- All bytes of a buffer written into a zero-filled one make the same buffer. -/
theorem Memory.writeList_zeroFilled {m : Memory} (h : m.wf = true) {c : Nat} (below : m.below c = true) :
    Memory.zeroFilled.writeList 0 ((List.range c).map m.read) = m := by
  refine Memory.ext (Memory.wf_writeList Memory.wf_zeroFilled 0 _) h fun b => ?_
  rw [List.range_eq_range', Memory.read_writeList_range Memory.wf_zeroFilled]
  split_ifs with hb
  · rfl
  · rw [Memory.read_above below (by omega), Memory.read_zeroFilled]

/-! ### LOAD -/

/-- WRB index after index writes the bytes in order. -/
theorem loadBytes_eq {d : BankId} {s : State} {p : PackedMultiset} (hp : s.bank d = .occupied p)
    (small : p.bc.toNat ≤ 65536) (idle : s.port = .idle) {idx : Nat} {ys : List Byte}
    (inside : idx + ys.length ≤ p.bc.toNat) :
    loadBytes d idx ys s =
      some (.loaded, s.setBank d (.occupied { p with buckets := p.buckets.writeList idx ys })) := by
  induction ys generalizing s p idx with
  | nil =>
    rw [Memory.writeList, ← hp, setBank_bank]
    rfl
  | cons y ys ih =>
    rw [List.length_cons] at inside
    have here : (BitVec.ofNat 16 idx).toNat = idx := index_toNat small (by omega)
    have byte := issue_wrb hp (idx := BitVec.ofNat 16 idx) y (by omega)
    rw [here, takeResponse_setBank, takeResponse_of_idle idle] at byte
    have rest := ih (bank_setBank_self s d (.occupied { p with buckets := p.buckets.write idx y })) small
      (by rw [setBank_port, idle]) (idx := idx + 1) (by simp only; omega)
    simp [loadBytes, byte, rest, Memory.writeList]

/-- What CREATE makes for an image. -/
def Image.created (im : Image) : PackedMultiset := newInst (BitVec.ofNat 16 im.n) ((BitVec.ofNat 8 im.k).setWidth 4)

theorem Image.n_operand {im : Image} (hn : im.n < 65536) : (BitVec.ofNat 16 im.n).toNat = im.n := Nat.mod_eq_of_lt hn
theorem Image.k_operand {im : Image} (le : im.k ≤ 8) : (BitVec.ofNat 8 im.k).toNat = im.k :=
  Nat.mod_eq_of_lt (by omega)

section Legal

variable {im : Image} (hn : im.n < 65536) (le : im.k ≤ 8)
include hn le

theorem Image.created_bc : im.created.bc.toNat = bucketsCount im.n im.k := by
  have k8 := Image.k_operand le
  have k4 : ((BitVec.ofNat 8 im.k).setWidth 4).toNat = im.k := by rw [setWidth_four (by rwa [k8]), k8]
  rw [Image.created, newInst_bc (by rwa [k4]), k4, Image.n_operand hn]

/-- LOAD into an empty bank: CREATE, then the bytes if `bucketsCount` is right, and else FREE. -/
theorem loadInto_eq (pos : 1 ≤ im.k) {d : BankId} {s : State} (he : s.bank d = .empty) (idle : s.port = .idle)
    (fits : bucketsCount im.n im.k ≤ s.cfg.bmax) :
    loadInto d im s = if bucketsCount im.n im.k = im.bc then
      loadBytes d 0 im.bytes (s.setBank d (.occupied im.created)) else some (.corruptData, s) := by
  have k8 := Image.k_operand le
  have n16 := Image.n_operand hn
  have small := bucketsCount_le_limit (Nat.le_of_lt_succ hn) le
  have bc : (dataOf im.created.bc.toNat).toNat = bucketsCount im.n im.k := by
    rw [dataOf_toNat (by omega), Image.created_bc hn le]
  have occupied := bank_setBank_self s d (.occupied im.created)
  have create : issue (.create d (BitVec.ofNat 8 im.k) (BitVec.ofNat 16 im.n)) s =
      some (⟨.ok, 0#32⟩, s.setBank d (.occupied im.created)) := by
    rw [issue_create he (by rwa [k8]) (by rwa [k8]) (by rwa [k8, n16]), ← Image.created, takeResponse_setBank,
      takeResponse_of_idle idle]
  have info : issue (.info d .bc) (s.setBank d (.occupied im.created)) =
      some (⟨.ok, dataOf im.created.bc.toNat⟩, s.setBank d (.occupied im.created)) := by
    rw [issue_info occupied (by decide), takeResponse_setBank, takeResponse_of_idle idle]
    rfl
  have free : issue (.free d) (s.setBank d (.occupied im.created)) = some (⟨.ok, 0#32⟩, s) := by
    rw [issue_free occupied, setBank_setBank, ← he, setBank_bank, takeResponse_of_idle idle]
  split_ifs with h
  · simp [loadInto, create, info, bc, h]
  · simp [loadInto, create, info, bc, h, free]

end Legal

/-- Whatever the bank holds, LOAD begins on an empty one. -/
theorem load_eq {d : BankId} {im : Image} (hk : im.k < 256) (hn : im.n < 65536) (length : im.bytes.length = im.bc)
    (s : State) : load d im s = loadInto d im (takeResponse (s.setBank d .empty)) := by
  rw [load, if_neg (by omega), if_neg (by simpa using length), issue_info_valid]
  cases hb : s.bank d with
  | empty =>
    rw [← hb, setBank_bank]
    simp [Bank.valid, dataOf, hb]
  | occupied p =>
    have idleBank : (takeResponse s).bank d = .occupied p := by rw [takeResponse_bank, hb]
    simp [Bank.valid, dataOf, issue_free idleBank, takeResponse_setBank]

/-- Settles O60: LOAD is left with the state it frees the bank in. -/
theorem loadRefusesCorruptImage : Obligations.LoadRefusesCorruptImage := by
  intro s d im hn pos le fits length corrupt
  have freed : (takeResponse (s.setBank d .empty)).bank d = .empty := by simp
  refine ⟨takeResponse (s.setBank d .empty), ?_, freed, fun j hj => ?_, ⟨by simp, by simp⟩, rfl⟩
  · rw [load_eq (by omega) hn length, loadInto_eq hn le pos freed rfl (by simpa using fits), if_neg corrupt.symm]
  · rw [takeResponse_bank, bank_setBank_ne hj]

/-- CREATE makes of an image what was dumped, but for the bytes. -/
theorem created_image {c : Config} {p : PackedMultiset} (h : p.wf c = true) :
    p.image.created = { p with buckets := Memory.zeroFilled } := by
  have n : BitVec.ofNat 16 p.n.toNat = p.n := by rw [BitVec.ofNat_toNat, BitVec.setWidth_eq]
  have k : (BitVec.ofNat 8 p.k.toNat).setWidth 4 = p.k := by simp
  have bc : p.image.created.bc = p.bc :=
    BitVec.eq_of_toNat_eq ((Image.created_bc p.n.isLt (wf_k_le h)).trans (wf_bc h).symm)
  rw [← bc]
  simp only [Image.created, PackedMultiset.image, n, k, newInst]

/-- LOAD of an image puts what was dumped into any bank. -/
theorem load_image {s : State} {p : PackedMultiset} (h : p.wf s.cfg = true) (d : BankId) :
    load d p.image s = some (.loaded, (takeResponse s).setBank d (.occupied p)) := by
  have bc : bucketsCount p.image.n p.image.k = p.image.bc := (wf_bc h).symm
  have fits : bucketsCount p.image.n p.image.k ≤ s.cfg.bmax := by rw [bc]; exact wf_bc_le h
  have k8 : p.image.k < 256 := Nat.lt_of_le_of_lt (wf_k_le h) (by decide)
  have length : p.image.bytes.length = p.bc.toNat := by simp [PackedMultiset.image]
  have bytes : Memory.zeroFilled.writeList 0 p.image.bytes = p.buckets :=
    Memory.writeList_zeroFilled (wf_buckets h) (wf_below h)
  have created := bank_setBank_self (takeResponse s) d (.occupied { p with buckets := Memory.zeroFilled })
  have written := loadBytes_eq created
    (wf_bc_le_limit (p := p) h) (setBank_port _ _ _) (idx := 0) (ys := p.image.bytes) (by simp [length])
  rw [setBank_setBank, bytes] at written
  calc load d p.image s = loadInto d p.image ((takeResponse s).setBank d .empty) := by
        rw [load_eq k8 p.n.isLt length, takeResponse_setBank]
    _ = loadBytes d 0 p.image.bytes ((takeResponse s).setBank d (.occupied p.image.created)) := by
        rw [loadInto_eq (im := p.image) p.n.isLt (wf_k_le h) (wf_k_pos h) (bank_setBank_self _ _ _) (setBank_port _ _ _)
          (by simpa using fits), if_pos bc, setBank_setBank]
    _ = some (.loaded, (takeResponse s).setBank d (.occupied p)) := by rw [created_image h, written]

/-- Settles O59: what is dumped is well formed, so LOAD accepts its image; the state between differs in the port. -/
theorem loadOfDumpRestoresTheInstance : Obligations.LoadOfDumpRestoresTheInstance := by
  intro s t a d p im hs hp dumped
  obtain ⟨-, banks, -⟩ := state_wf_iff.1 hs
  have hwf := occupied_wf banks hp
  rw [dump_occupied hp hwf] at dumped
  cases dumped
  refine ⟨(takeResponse s).setBank d (.occupied p), load_image (s := takeResponse s) hwf d, bank_setBank_self _ _ _,
    fun j hj => ?_, ⟨by simp, by simp⟩, by simp⟩
  rw [bank_setBank_ne hj, takeResponse_bank]

end Sys2Proof.Machine
end

section
/-! The lifecycle commands (40_lifecycle.md R70 to R73): what CREATE, FREE, COPY and INFO answer where they do not fail,
and the frame of a command with one destination. -/

namespace Sys2Proof.Machine

/-! ### Each command by the banks it finds -/

theorem exec_create_of_empty {s : State} {rd : BankId} {k : BitVec 8} {n : BitVec 16} (was : s.bank rd = .empty)
    (pos : 1 ≤ k.toNat) (le : k.toNat ≤ 8) (fits : bucketsCount n.toNat k.toNat ≤ s.cfg.bmax) :
    exec (.create rd k n) s = .next (fill rd (newInst n (k.setWidth 4)) s) := by
  rw [exec, execCreate, needEmpty_empty was, createIn_fill pos le fits]

theorem exec_free_of_occupied {s : State} {rd : BankId} {p : PackedMultiset} (was : s.bank rd = .occupied p) :
    exec (.free rd) s = .next (respond .ok 0#32 (s.setBank rd .empty)) := by
  rw [exec, execFree, needOccupied_occupied was]

theorem exec_free_of_empty {s : State} {rd : BankId} (was : s.bank rd = .empty) :
    exec (.free rd) s = .next (raise .noinst s) := by
  rw [exec, execFree, needOccupied_empty was]

/-- The four fields COPY takes over are all there are, so the destination gets what the source holds. -/
theorem exec_copy_of_occupied_of_empty {s : State} {rd ra : BankId} {a : PackedMultiset}
    (source : s.bank ra = .occupied a) (was : s.bank rd = .empty) : exec (.copy rd ra) s = .next (fill rd a s) := by
  rw [exec, execCopy, needOccupied_occupied source, needEmpty_empty was]

theorem exec_info_valid (s : State) (ra : BankId) :
    exec (.info ra .valid) s = .next (respond .ok (dataOf (s.bank ra).valid.toNat) s) := by
  rw [exec, execInfo, if_pos rfl]

theorem exec_info_of_occupied {s : State} {ra : BankId} {p : PackedMultiset} (was : s.bank ra = .occupied p)
    {sel : InfoSel} (field : sel ≠ .valid) : exec (.info ra sel) s = .next (respond .ok (infoField p sel) s) := by
  rw [exec, execInfo, if_neg field, needOccupied_occupied was]

/-! ### The frame -/

theorem otherBanksKept_of_exec {c : Instr} {s t : State} {rd : BankId} (h : exec c s = .next t)
    (hd : destination c = some rd) : otherBanksKept rd s t := by
  intro j other
  refine bank_of_exec_of_ne_destination h ?_
  rw [hd]
  exact fun same => other (Option.some.inj same).symm

theorem fill_bank_self (rd : BankId) (p : PackedMultiset) (s : State) : (fill rd p s).bank rd = .occupied p := by
  rw [fill_bank, if_pos rfl]

theorem ne_of_occupied_of_empty {s : State} {i j : BankId} {p : PackedMultiset} (hi : s.bank i = .occupied p)
    (hj : s.bank j = .empty) : i ≠ j := by
  rintro rfl
  simp [hi] at hj

/-! ### The obligations -/

/-- Settles O33: CREATE fills its bank with `newInst`, whose buffer is zero-filled and whose width is `k` in the 4 bits
of 10_state.md R13. -/
theorem createMakesAnEmptyMultiset : Obligations.CreateMakesAnEmptyMultiset := by
  intro s rd k n was pos le fits
  have created := exec_create_of_empty was pos le fits
  have width : (k.setWidth 4).toNat = k.toNat := setWidth_four le
  have legal : (k.setWidth 4).toNat ≤ 8 := by rwa [width]
  have bytes : (newInst n (k.setWidth 4)).bc.toNat = bucketsCount n.toNat k.toNat := by rw [newInst_bc legal, width]
  exact ⟨_, _, created, rfl, fill_bank_self rd _ s, rfl, width, bytes, Memory.read_zeroFilled,
    fun e _ => newInst_countRaw n legal e, otherBanksKept_of_exec created rfl, sameEnvironment_of_exec created⟩

/-- Settles O34: the bank FREE leaves is empty, which is what the second FREE finds. -/
theorem freeEmptiesTheBank : Obligations.FreeEmptiesTheBank := by
  intro s rd p was
  have freed := exec_free_of_occupied was
  have empty : (respond .ok 0#32 (s.setBank rd .empty)).bank rd = .empty := by rw [respond_bank, bank_setBank_self]
  refine ⟨_, freed, rfl, ?_, otherBanksKept_of_exec freed rfl, sameEnvironment_of_exec freed, ?_⟩
  · rw [empty, Bank.valid]
  · exact exec_free_of_empty (by rw [takeResponse_bank, empty])

/-- Settles O35: COPY fills its bank with what the source holds; the source, being occupied, is another bank. -/
theorem copyDuplicatesTheBank : Obligations.CopyDuplicatesTheBank := by
  intro s rd ra a source was
  have copied := exec_copy_of_occupied_of_empty source was
  have others : otherBanksKept rd s (fill rd a s) := otherBanksKept_of_exec copied rfl
  have kept : (fill rd a s).bank ra = .occupied a := by rw [others ra (ne_of_occupied_of_empty source was), source]
  exact ⟨_, a, copied, rfl, fill_bank_self rd a s, rfl, rfl, rfl, fun _ => rfl, kept, others,
    sameEnvironment_of_exec copied⟩

/-- Settles O36: `valid` of any bank, and the size fields of an occupied one; a response touches no bank. -/
theorem infoReturnsTheField : Obligations.InfoReturnsTheField := by
  refine fun s ra => ⟨exec_info_valid s ra, fun p was => ?_⟩
  have field {sel : InfoSel} (h : sel ≠ .valid) := exec_info_of_occupied was h
  have valid : exec (.info ra .valid) s = .next (respond .ok 1#32 s) := by
    rw [exec_info_valid, was]
    rfl
  exact ⟨field (by decide), field (by decide), field (by decide), valid, respond_bank .ok 1#32 s⟩

end Sys2Proof.Machine
end

section
/-! The counter commands (41_counter_access.md R80 to R84): what COUNT and INC answer for an element of the domain, one
increment and any number of them as one field write, and INC issued any number of times. -/

namespace Sys2Proof.Machine

/-! ### Each command by the bank it finds -/

theorem exec_count_of_occupied {s : State} {ra : BankId} {e : BitVec 16} {p : PackedMultiset}
    (was : s.bank ra = .occupied p) (he : e.toNat ≤ p.n.toNat) :
    exec (.count ra e) s = .next (respond .ok (BitVec.ofNat 32 (p.countRaw e.toNat)) s) := by
  rw [exec, execCount, needOccupied_occupied was, if_neg (Nat.not_lt.2 he), dataOf]

theorem exec_inc_of_occupied {s : State} {rd : BankId} (e : BitVec 16) {p : PackedMultiset}
    (was : s.bank rd = .occupied p) :
    exec (.inc rd e) s = .next (respond .ok 0#32 (s.setBank rd (.occupied (p.increment e.toNat)))) := by
  rw [exec, execInc, needOccupied_occupied was]

/-- Settles O39: the answer is the count, whose digits `countRaw_testBit` reads off the stream. -/
theorem countReadsTheField : Obligations.CountReadsTheField := by
  refine fun s ra e p was wf he =>
    ⟨p.countRaw e.toNat, exec_count_of_occupied was he, countRaw_lt wf e.toNat, fun x hx => ?_⟩
  have digit : p.k.toNat - 1 - x = e.toNat * p.k.toNat + p.k.toNat - 1 - (e.toNat * p.k.toNat + x) := by omega
  rw [digit, countRaw_testBit wf (by omega) (by omega)]

/-! ### Increments as one field write -/

/-- Of two writes to one field the second stays: both write exactly the bits of that field. -/
theorem putField_putField {c : Config} {p : PackedMultiset} (h : p.wf c = true) {e v v' : Nat} (he : e ≤ p.n.toNat)
    (hv : v < 2 ^ p.k.toNat) (hv' : v' < 2 ^ p.k.toNat) : (p.putField e v).putField e v' = p.putField e v' := by
  have first := putField_wf h he v
  have sameBuckets : ((p.putField e v).putField e v').buckets = (p.putField e v').buckets := by
    refine Memory.ext_stream (wf_buckets (putField_wf first he v')) (wf_buckets (putField_wf h he v')) fun s => ?_
    rw [putField_streamBit first hv', putField_streamBit h hv', putField_k]
    split_ifs with inField
    · rfl
    · exact putField_streamBit_outside h hv inField
  calc (p.putField e v).putField e v'
      = { p with buckets := ((p.putField e v).putField e v').buckets } := rfl
    _ = p.putField e v' := by rw [sameBuckets]; rfl

/-- What is cut off at the ceiling `2^k - 1` fits in `k` bits. -/
theorem min_maxCount_lt (v k : Nat) : min v (maxCount k) < 2 ^ k := lt_two_pow_of_le_maxCount (Nat.min_le_right _ _)

/-- One increment writes the lesser of the next count and the ceiling: at the ceiling it writes what is there
(41_counter_access.md R81, 20_memory.md R39 (d)). -/
theorem increment_eq_putField {c : Config} {p : PackedMultiset} (h : p.wf c = true) {e : Nat} (he : e ≤ p.n.toNat) :
    p.increment e = p.putField e (min (p.countRaw e + 1) (maxCount p.k.toNat)) := by
  rcases increment_cases p e with ⟨same, outside | saturated⟩ | ⟨put, -, unsaturated⟩
  · omega
  · rw [same, ← saturated, Nat.min_eq_right (Nat.le_succ _), putField_countRaw_self h he]
  · have room : p.countRaw e + 1 ≤ maxCount p.k.toNat := Nat.le_sub_one_of_lt (countRaw_succ_lt h unsaturated)
    rw [put, Nat.min_eq_left room]

/-- Any number of increments write the lesser of the sum and the ceiling (41_counter_access.md R82, R84). -/
theorem addOcc_eq_putField {c : Config} {p : PackedMultiset} (h : p.wf c = true) {e : Nat} (he : e ≤ p.n.toNat)
    (m : Nat) : p.addOcc e m = p.putField e (min (p.countRaw e + m) (maxCount p.k.toNat)) := by
  induction m with
  | zero =>
    have below : p.countRaw e ≤ maxCount p.k.toNat := Nat.le_sub_one_of_lt (countRaw_lt h e)
    rw [PackedMultiset.addOcc, Nat.add_zero, Nat.min_eq_left below, putField_countRaw_self h he]
  | succ m ih =>
    have nextCount : min (min (p.countRaw e + m) (maxCount p.k.toNat) + 1) (maxCount p.k.toNat) =
        min (p.countRaw e + (m + 1)) (maxCount p.k.toNat) := by omega
    rw [PackedMultiset.addOcc, ih, increment_eq_putField (putField_wf h he _) he, putField_k,
      countRaw_putField_self h (min_maxCount_lt _ _), nextCount,
      putField_putField h he (min_maxCount_lt _ _) (min_maxCount_lt _ _)]

/-- The count after any number of increments (41_counter_access.md R82). -/
theorem countRaw_addOcc_self {c : Config} {p : PackedMultiset} (h : p.wf c = true) {e : Nat} (he : e ≤ p.n.toNat)
    (m : Nat) : (p.addOcc e m).countRaw e = min (p.countRaw e + m) (maxCount p.k.toNat) := by
  rw [addOcc_eq_putField h he, countRaw_putField_self h (min_maxCount_lt _ _)]

/-- Another count after any number of increments (41_counter_access.md R83). -/
theorem countRaw_addOcc_other {c : Config} {p : PackedMultiset} (h : p.wf c = true) {e e' : Nat} (he : e ≤ p.n.toNat)
    (hne : e' ≠ e) (m : Nat) : (p.addOcc e m).countRaw e' = p.countRaw e' := by
  rw [addOcc_eq_putField h he, countRaw_putField_other h (min_maxCount_lt _ _) hne]

/-- Settles O44: a sum that fits is below the ceiling. -/
theorem addOccIsOneFieldWrite : Obligations.AddOccIsOneFieldWrite := by
  intro c p e m h he fits
  rw [addOcc_eq_putField h he, maxCount, Nat.min_eq_left fits]

/-- Settles O41: INC is one field write of a value up to the ceiling, so the laws of `PutField` (O40) give every clause
about the buffer. -/
theorem incAddsOneAndSaturates : Obligations.IncAddsOneAndSaturates := by
  intro s rd e p was wf he
  have incremented := exec_inc_of_occupied e was
  have bank : (respond .ok 0#32 (s.setBank rd (.occupied (p.increment e.toNat)))).bank rd =
      .occupied (p.increment e.toNat) := by rw [respond_bank, bank_setBank_self]
  obtain ⟨count, others, -, bytes, bits, -⟩ := counterPrimitiveLaws s.cfg p e.toNat
    (min (p.countRaw e.toNat + 1) (maxCount p.k.toNat)) wf he (Nat.min_le_right _ _)
  rw [← increment_eq_putField wf he] at count others bytes bits
  exact ⟨_, _, incremented, rfl, bank, increment_n p _, increment_k p _, increment_bc p _, count, others, bits, bytes,
    otherBanksKept_of_exec incremented rfl, sameEnvironment_of_exec incremented⟩

/-! ### INC issued any number of times -/

theorem issueRepeated_zero (c : Instr) (s : State) : issueRepeated c 0 s = some s := rfl

theorem issueRepeated_succ {c : Instr} {s t : State} {r : Response} (h : issue c s = some (r, t)) (m : Nat) :
    issueRepeated c (m + 1) s = issueRepeated c m t := by
  simp only [issueRepeated, List.replicate_succ, issueAll, h]
  cases issueAll (List.replicate m c) t <;> rfl

theorem issue_inc {s : State} {rd : BankId} (e : BitVec 16) {p : PackedMultiset} (was : s.bank rd = .occupied p) :
    issue (.inc rd e) s =
      some (⟨.ok, 0#32⟩, takeResponse (s.setBank rd (.occupied (p.increment e.toNat)))) :=
  issue_of_respond (exec_inc_of_occupied e was)

/-- `addOcc` recurses on its last increment; this splits off the first. -/
theorem increment_addOcc (p : PackedMultiset) (e m : Nat) : (p.increment e).addOcc e m = p.addOcc e (m + 1) := by
  induction m with
  | zero => rfl
  | succ m ih => rw [PackedMultiset.addOcc, ih, ← PackedMultiset.addOcc]

/-- `m` INC commands are `AddOcc` on the bank (41_counter_access.md R84). -/
theorem issueRepeated_inc {s : State} {rd : BankId} (e : BitVec 16) (m : Nat) {p : PackedMultiset}
    (was : s.bank rd = .occupied p) :
    ∃ t, issueRepeated (.inc rd e) m s = some t ∧ t.bank rd = .occupied (p.addOcc e.toNat m) := by
  induction m generalizing s p with
  | zero => exact ⟨s, issueRepeated_zero _ s, was⟩
  | succ m ih =>
    rw [issueRepeated_succ (issue_inc e was), ← increment_addOcc]
    exact ih (by rw [takeResponse_bank, bank_setBank_self])

/-- COUNT after `m` INC commands (41_counter_access.md R82). -/
theorem count_after_incs {c : Config} {s : State} {rd : BankId} {e : BitVec 16} (m : Nat) {p : PackedMultiset}
    (was : s.bank rd = .occupied p) (wf : p.wf c = true) (he : e.toNat ≤ p.n.toNat) :
    ∃ t, issueRepeated (.inc rd e) m s = some t ∧ exec (.count rd e) t =
      .next (respond .ok (BitVec.ofNat 32 (min (p.countRaw e.toNat + m) (maxCount p.k.toNat))) t) := by
  obtain ⟨t, run, after⟩ := issueRepeated_inc e m was
  have inDomain : e.toNat ≤ (p.addOcc e.toNat m).n.toNat := by rwa [addOcc_n]
  exact ⟨t, run, by rw [exec_count_of_occupied after inDomain, countRaw_addOcc_self wf he]⟩

/-- Settles O42: the count after `m` increments, from what the bank holds and from what CREATE puts there, where every
count is 0. -/
theorem incrementLaw : Obligations.IncrementLaw := by
  refine ⟨fun s rd e m p was wf he => count_after_incs m was wf he, fun s rd k n e m was pos le fits he => ?_⟩
  have width : (k.setWidth 4).toNat = k.toNat := setWidth_four le
  have legal : (k.setWidth 4).toNat ≤ 8 := by rwa [width]
  have wf : (newInst n (k.setWidth 4)).wf s.cfg = true := newInst_wf (by rwa [width]) legal (by rwa [width])
  have created : (takeResponse (fill rd (newInst n (k.setWidth 4)) s)).bank rd =
      .occupied (newInst n (k.setWidth 4)) := by rw [takeResponse_bank, fill_bank_self]
  obtain ⟨t, run, counted⟩ := count_after_incs m created wf he
  rw [newInst_countRaw n legal, Nat.zero_add, newInst_k, width] at counted
  exact ⟨_, t, exec_create_of_empty was pos le fits, run, counted⟩

/-- Settles O43: `m` INC commands are `AddOcc`, which leaves every other count as it was. -/
theorem separationLaw : Obligations.SeparationLaw := by
  intro s rd e1 e2 m p was wf he1 _ different
  obtain ⟨t, run, after⟩ := issueRepeated_inc e1 m was
  have hne : e2.toNat ≠ e1.toNat := fun same => different (BitVec.eq_of_toNat_eq same).symm
  exact ⟨t, _, run, after, countRaw_addOcc_other wf he1 hne m⟩

end Sys2Proof.Machine
end

section
/-! The counts of what the set operators build (42_set_operators.md R102 to R109): ISECT, ISECTL and DIFF are one kind of
loop, which writes one field a turn into a new instance, so a count of the result is a function of the counts of the
same element; COMPL inverts every stream bit. -/

namespace Sys2Proof.Machine

/-! ### A loop that writes one field a turn -/

/-- The result after `j` turns of a loop that gives element `i` the count `v i` in turn `i`. -/
def CountsUpTo (c : Config) (n : BitVec 16) (k : BitVec 4) (v : Nat → Nat) (j : Nat) (r : PackedMultiset) : Prop :=
  Built c n k r ∧ ∀ e, r.countRaw e = if e < j then v e else 0

theorem newInst_countsUpTo {c : Config} {n : BitVec 16} {k : BitVec 4} (h : (newInst n k).wf c = true) (v : Nat → Nat) :
    CountsUpTo c n k v 0 (newInst n k) := by
  have legal : k.toNat ≤ 8 := wf_k_le h
  exact ⟨newInst_built h, fun e => by rw [newInst_countRaw n legal, if_neg (Nat.not_lt_zero e)]⟩

/-- Writing the next field takes the count one element further and leaves those before it (20_memory.md R39). -/
theorem CountsUpTo.putField {c : Config} {n : BitVec 16} {k : BitVec 4} {v : Nat → Nat} {j : Nat} {r : PackedMultiset}
    (h : CountsUpTo c n k v j r) (inDomain : j ≤ n.toNat) (fits : v j < 2 ^ k.toNat) :
    CountsUpTo c n k v (j + 1) (r.putField j (v j)) := by
  obtain ⟨built, counts⟩ := h
  have fitsHere : v j < 2 ^ r.k.toNat := by rwa [built.width]
  refine ⟨built.putField inDomain fits, fun e => ?_⟩
  by_cases here : e = j
  · rw [here, countRaw_putField_self built.wf fitsHere, if_pos (Nat.lt_succ_self j)]
  · rw [countRaw_putField_other built.wf fitsHere here, counts]
    exact if_congr (by omega) rfl rfl

/-- Where turn `i` of a loop writes `v i` to the field of element `i`, which still is 0, the result counts `v` below the
bound and 0 from there on. -/
theorem countRaw_forUp {c : Config} {n : BitVec 16} {k : BitVec 4} {m : Nat} {f : Nat → PackedMultiset → PackedMultiset}
    {v : Nat → Nat} (start : (newInst n k).wf c = true) (inDomain : ∀ i, i < m → i ≤ n.toNat)
    (fits : ∀ i, v i < 2 ^ k.toNat)
    (turn : ∀ i r, i < m → Built c n k r → r.countRaw i = 0 → f i r = r.putField i (v i)) (e : Nat) :
    (forUp m f (newInst n k)).countRaw e = if e < m then v e else 0 := by
  have afterLoop : CountsUpTo c n k v m (forUp m f (newInst n k)) := by
    refine forUp_induct (P := CountsUpTo c n k v) (newInst_countsUpTo start v) fun i r hi soFar => ?_
    have zero : r.countRaw i = 0 := by rw [soFar.2, if_neg (Nat.lt_irrefl i)]
    rw [turn i r hi soFar.1 zero]
    exact soFar.putField (inDomain i hi) (fits i)
  exact afterLoop.2 e

/-- Increments of a counter at 0 write their number, where it fits (41_counter_access.md R84). -/
theorem addOcc_of_countRaw_zero {c : Config} {r : PackedMultiset} (h : r.wf c = true) {i m : Nat}
    (hi : i ≤ r.n.toNat) (zero : r.countRaw i = 0) (fits : m < 2 ^ r.k.toNat) : r.addOcc i m = r.putField i m := by
  have below : m ≤ maxCount r.k.toNat := Nat.le_sub_one_of_lt fits
  rw [addOcc_eq_putField h hi, zero, Nat.zero_add, Nat.min_eq_left below]

/-- A turn that does nothing writes the 0 that is there. -/
theorem eq_putField_zero {c : Config} {r : PackedMultiset} (h : r.wf c = true) {i : Nat} (hi : i ≤ r.n.toNat)
    (zero : r.countRaw i = 0) : r = r.putField i 0 := by
  rw [← zero, putField_countRaw_self h hi]

/-! ### ISECT -/

theorem isectOf_countRaw {c : Config} {a b : PackedMultiset} (ha : a.wf c = true) (hb : b.wf c = true) {e : Nat}
    (he : e ≤ min a.n.toNat b.n.toNat) : (isectOf a b).countRaw e = min (a.countRaw e) (b.countRaw e) := by
  have counts := countRaw_forUp (f := isectElem a b) (minField_wf ha hb) (fun _ => Nat.le_of_lt_succ)
    (min_countRaw_lt ha hb) (fun _ _ _ _ _ => rfl) e
  rwa [if_pos (by rw [minField_toNat]; omega)] at counts

/-- Sizes and every field written are the same when the sources change places (42_set_operators.md R103). -/
theorem isectOf_comm (a b : PackedMultiset) : isectOf a b = isectOf b a := by
  have sameTurn : isectElem a b = isectElem b a :=
    funext fun e => funext fun r => by rw [isectElem, isectElem, Nat.min_comm]
  rw [isectOf, isectOf, minField_comm a.n, minField_comm a.k, sameTurn]

/-! ### ISECTL -/

/-- What the literal intersection leaves in element `i` where its loop comes by (42_set_operators.md R106). -/
def bothNonZero (a b : PackedMultiset) (i : Nat) : Nat := if a.countRaw i ≠ 0 ∧ b.countRaw i ≠ 0 then 1 else 0

/-- There are no more bytes than elements, so a byte index is an element of the domain. -/
theorem le_domain_of_lt_bc {c : Config} {p : PackedMultiset} (h : p.wf c = true) {i : Nat} (hi : i < p.bc.toNat) :
    i ≤ p.n.toNat := by
  have := bucketsCount_le_elements p.n.toNat (wf_k_le h)
  rw [wf_bc h] at hi
  omega

/-- Every index the literal loop visits is in both domains (42_set_operators.md R106). -/
theorem isectl_index_in_domains {c : Config} {a b : PackedMultiset} (ha : a.wf c = true) (hb : b.wf c = true) {i : Nat}
    (hi : i < min a.bc.toNat b.bc.toNat) : i ≤ a.n.toNat ∧ i ≤ b.n.toNat :=
  ⟨le_domain_of_lt_bc ha (by omega), le_domain_of_lt_bc hb (by omega)⟩

theorem isectlElem_eq_putField {c : Config} {a b r : PackedMultiset} (h : r.wf c = true) {i : Nat}
    (hi : i ≤ r.n.toNat) (zero : r.countRaw i = 0) : isectlElem a b i r = r.putField i (bothNonZero a b i) := by
  rw [isectlElem, bothNonZero]
  split_ifs with both
  · exact addOcc_of_countRaw_zero h hi zero (Nat.one_lt_two_pow (wf_k_pos h).ne')
  · exact eq_putField_zero h hi zero

theorem isectlOf_countRaw {c : Config} {a b : PackedMultiset} (ha : a.wf c = true) (hb : b.wf c = true) (e : Nat) :
    (isectlOf a b).countRaw e = if e < min a.bc.toNat b.bc.toNat then bothNonZero a b e else 0 := by
  have start := minField_wf ha hb
  have inDomain : ∀ i, i < min a.bc.toNat b.bc.toNat → i ≤ (minField a.n b.n).toNat := by
    intro i hi
    obtain ⟨inA, inB⟩ := isectl_index_in_domains ha hb hi
    rw [minField_toNat]
    exact Nat.le_min.2 ⟨inA, inB⟩
  have fits : ∀ i, bothNonZero a b i < 2 ^ (minField a.k b.k).toNat := by
    intro i
    have oneFits : 1 < 2 ^ (minField a.k b.k).toNat := Nat.one_lt_two_pow (wf_k_pos start).ne'
    rw [bothNonZero]
    split_ifs <;> omega
  exact countRaw_forUp start inDomain fits (fun i r hi built zero =>
    isectlElem_eq_putField built.wf (by rw [built.domain]; exact inDomain i hi) zero) e

/-! ### DIFF -/

theorem diffElem_eq_putField {c : Config} {a b r : PackedMultiset} (h : r.wf c = true) {i : Nat}
    (hi : i ≤ r.n.toNat) (zero : r.countRaw i = 0) (fits : a.countRaw i < 2 ^ r.k.toNat) :
    diffElem a b i r = r.putField i (a.countRaw i - subtrahend b i) := by
  rw [diffElem]
  split_ifs with positive
  · exact addOcc_of_countRaw_zero h hi zero (by omega)
  · rw [Nat.sub_eq_zero_of_le (Nat.not_lt.1 positive)]
    exact eq_putField_zero h hi zero

theorem diffOf_countRaw {c : Config} {a : PackedMultiset} (ha : a.wf c = true) (b : PackedMultiset) {e : Nat}
    (he : e ≤ a.n.toNat) : (diffOf a b).countRaw e = a.countRaw e - subtrahend b e := by
  have counts := countRaw_forUp (f := diffElem a b) (v := fun i => a.countRaw i - subtrahend b i) (newInst_wf_of_wf ha)
    (fun _ => Nat.le_of_lt_succ) (fun i => Nat.lt_of_le_of_lt (Nat.sub_le _ _) (countRaw_lt ha i))
    (fun i r hi built zero => diffElem_eq_putField built.wf (by rw [built.domain]; omega) zero
      (by rw [built.width]; exact countRaw_lt ha i)) e
  rwa [if_pos (Nat.lt_succ_of_le he)] at counts

/-! ### COMPL -/

@[simp] theorem complOf_k (a : PackedMultiset) : (complOf a).k = a.k := rfl

/-- The field's inverted bits are the digits of the difference to the ceiling (42_set_operators.md R102 (a)). -/
theorem complOf_countRaw {c : Config} {a : PackedMultiset} (ha : a.wf c = true) {e : Nat} (he : e ≤ a.n.toNat) :
    (complOf a).countRaw e = 2 ^ a.k.toNat - (a.countRaw e + 1) := by
  have count := countRaw_lt ha e
  have inBuffer := field_in_buffer ha he
  rw [PackedMultiset.countRaw, complOf_k]
  refine readField_eq (wf_k_le ha) (by omega) fun i hi => ?_
  rw [complOf_streamBit a (by omega), Nat.testBit_two_pow_sub_succ count,
    PackedMultiset.countRaw, readField_testBit _ (wf_k_le ha)]
  simp [hi]

/-- Inverting twice gives every byte back; at and above `bc` both buffers have none (42_set_operators.md R102 (c)). -/
theorem complOf_complOf {c : Config} {a : PackedMultiset} (ha : a.wf c = true) : complOf (complOf a) = a := by
  have sameBuckets : (complOf (complOf a)).buckets = a.buckets := by
    refine Memory.ext (wf_buckets (complOf_wf (complOf_wf ha))) (wf_buckets ha) fun j => ?_
    by_cases inside : j < a.bc.toNat
    · simp [complOf, Memory.read_tabulate, inside]
    · rw [Memory.read_above (wf_below ha) (Nat.not_lt.1 inside)]
      simp [complOf, Memory.read_tabulate, inside]
  calc complOf (complOf a)
      = { a with buckets := (complOf (complOf a)).buckets } := rfl
    _ = a := by rw [sameBuckets]

/-! ### The lanes -/

/-- Settles O52: each result's count is a function of the sizes and of the two counts of the same element. -/
theorem lanesDoNotInteract : Obligations.LanesDoNotInteract := by
  intro c a b a' b' e ha hb ha' hb' an ak bn bk he countA countB
  have aBytes : a'.bc.toNat = a.bc.toNat := by rw [wf_bc ha', wf_bc ha, an, ak]
  have bBytes : b'.bc.toNat = b.bc.toNat := by rw [wf_bc hb', wf_bc hb, bn, bk]
  refine ⟨fun heb => ⟨?_, ?_⟩, ?_⟩
  · have inDomains : e ≤ min a.n.toNat b.n.toNat := Nat.le_min.2 ⟨he, heb⟩
    rw [isectOf_countRaw ha' hb' (by rwa [an, bn]), isectOf_countRaw ha hb inDomains, countA, countB]
  · rw [isectlOf_countRaw ha' hb', isectlOf_countRaw ha hb, aBytes, bBytes, bothNonZero, bothNonZero, countA, countB]
  · rw [diffOf_countRaw ha' b' (by rwa [an]), diffOf_countRaw ha b he, subtrahend, subtrahend, countA, bn, countB]

end Sys2Proof.Machine
end

section
/-! The set operators as commands (42_set_operators.md R100 to R110): what each answers, what COUNT and INFO of the
result answer afterwards, and what becomes of the sources. -/

namespace Sys2Proof.Machine

/-! ### Each command by the banks it finds -/

theorem exec_compl_of_occupied_of_empty {s : State} {rd ra : BankId} {a : PackedMultiset}
    (source : s.bank ra = .occupied a) (was : s.bank rd = .empty) :
    exec (.compl rd ra) s = .next (fill rd (complOf a) s) := by
  rw [exec, execCompl, needOccupied_occupied source, needEmpty_empty was]

/-- The three operators with two sources go through the same operand forms. -/
theorem fill_two_of_occupied_of_empty {s : State} {rd ra rb : BankId} {a b : PackedMultiset}
    (first : s.bank ra = .occupied a) (second : s.bank rb = .occupied b) (was : s.bank rd = .empty)
    (f : PackedMultiset → PackedMultiset → PackedMultiset) :
    (needOccupied ra s fun a => needOccupied rb s fun b => needEmpty rd s (fill rd (f a b) s)) =
      fill rd (f a b) s := by
  rw [needOccupied_occupied first, needOccupied_occupied second, needEmpty_empty was]

/-- The result stands in its bank once the response is taken. -/
theorem takeResponse_fill_bank_self (rd : BankId) (p : PackedMultiset) (s : State) :
    (takeResponse (fill rd p s)).bank rd = .occupied p := by
  rw [takeResponse_bank, fill_bank_self]

/-! ### What INFO and the padding show of a result -/

theorem Built.bc {c : Config} {n : BitVec 16} {k : BitVec 4} {r : PackedMultiset} (built : Built c n k r) :
    r.bc.toNat = bucketsCount n.toNat k.toNat := by
  rw [wf_bc built.wf, built.domain, built.width]

theorem Built.padding_zero {c : Config} {n : BitVec 16} {k : BitVec 4} {r : PackedMultiset} (built : Built c n k r)
    {x : Nat} (hx : isPadding r x) : r.buckets.streamBit x = false := by
  obtain ⟨behind, -⟩ := hx
  rw [built.domain, built.width] at behind
  exact built.behind x behind

theorem Built.exec_info {c : Config} {n : BitVec 16} {k : BitVec 4} {r : PackedMultiset} (built : Built c n k r)
    {s : State} {rd : BankId} (was : s.bank rd = .occupied r) :
    exec (.info rd .n) s = .next (respond .ok (BitVec.ofNat 32 n.toNat) s) ∧
      exec (.info rd .k) s = .next (respond .ok (BitVec.ofNat 32 k.toNat) s) ∧
      exec (.info rd .bc) s = .next (respond .ok (BitVec.ofNat 32 (bucketsCount n.toNat k.toNat)) s) := by
  have field {sel : InfoSel} (h : sel ≠ .valid) := exec_info_of_occupied was h
  rw [field (by decide), field (by decide), field (by decide), infoField, infoField, infoField, built.domain,
    built.width, built.bc]
  exact ⟨rfl, rfl, rfl⟩

/-! ### COMPL -/

/-- Settles O45: COMPL fills its bank with `complOf` of the source. -/
theorem complInvertsEveryByte : Obligations.ComplInvertsEveryByte := by
  intro s rd ra a source was
  have inverted := exec_compl_of_occupied_of_empty source was
  have bytes : ∀ j, j < a.bc.toNat → (complOf a).buckets.read j = ~~~ a.buckets.read j :=
    fun j hj => by rw [complOf, Memory.read_tabulate, if_pos hj]
  exact ⟨_, _, inverted, rfl, fill_bank_self rd _ s, rfl, rfl, rfl, bytes, otherBanksKept_of_exec inverted rfl,
    sameEnvironment_of_exec inverted⟩

/-- Settles O46: the laws of `complOf`; the second COMPL finds the first result in `rd` and `rc` still empty. -/
theorem complLaws : Obligations.ComplLaws := by
  intro s rd ra rc a source wf was third other
  have stillEmpty : (takeResponse (fill rd (complOf a) s)).bank rc = .empty := by
    rw [takeResponse_bank, fill_bank, if_neg other, third]
  refine ⟨_, complOf a, _, exec_compl_of_occupied_of_empty source was, fill_bank_self rd _ s, fun e he => ?_,
    exec_compl_of_occupied_of_empty (takeResponse_fill_bank_self rd _ s) stillEmpty, ?_⟩
  · rw [complOf_countRaw wf he]
    omega
  · rw [fill_bank_self, complOf_complOf wf]

/-! ### ISECT -/

/-- Settles O47: the loop's counts, and the sizes and the padding of what it builds. -/
theorem isectIsTheMinimum : Obligations.IsectIsTheMinimum := by
  intro s rd ra rb a b first second was ha hb
  have done : exec (.isect rd ra rb) s = .next (fill rd (isectOf a b) s) :=
    congrArg _ (fill_two_of_occupied_of_empty first second was isectOf)
  have built := isectOf_built ha hb
  have result := takeResponse_fill_bank_self rd (isectOf a b) s
  obtain ⟨infoN, infoK, infoBc⟩ := built.exec_info result
  rw [minField_toNat] at infoN infoK
  rw [minField_toNat, minField_toNat] at infoBc
  refine ⟨_, _, done, rfl, fill_bank_self rd _ s, fun e he => ?_, infoN, infoK, infoBc, fun x => built.padding_zero,
    otherBanksKept_of_exec done rfl, sameEnvironment_of_exec done⟩
  rw [exec_count_of_occupied result (by rwa [built.domain, minField_toNat]), isectOf_countRaw ha hb he]

/-- Two banks that must be occupied answer alike in either order, the error being the same. -/
theorem needOccupied_comm (i j : BankId) (s : State) (go : PackedMultiset → PackedMultiset → State) :
    (needOccupied i s fun p => needOccupied j s fun q => go p q) =
      needOccupied j s fun q => needOccupied i s fun p => go p q := by
  cases hi : s.bank i with
  | empty =>
    cases hj : s.bank j with
    | empty => rw [needOccupied_empty hi, needOccupied_empty hj]
    | occupied q => rw [needOccupied_empty hi, needOccupied_occupied hj, needOccupied_empty hi]
  | occupied p =>
    cases hj : s.bank j with
    | empty => rw [needOccupied_occupied hi, needOccupied_empty hj, needOccupied_empty hj]
    | occupied q => rw [needOccupied_occupied hi, needOccupied_occupied hj, needOccupied_occupied hj,
        needOccupied_occupied hi]

/-- Settles O48: the checks of the sources and the loop's result are the same in either order. -/
theorem isectCommutes : Obligations.IsectCommutes := by
  intro s rd ra rb
  rw [exec, exec, execIsect, execIsect, needOccupied_comm]
  simp only [isectOf_comm]

/-! ### ISECTL -/

/-- Settles O49: the loop's counts, and the sizes and the padding of what it builds. -/
theorem isectlClosedForm : Obligations.IsectlClosedForm := by
  intro s rd ra rb a b first second was ha hb
  have done : exec (.isectl rd ra rb) s = .next (fill rd (isectlOf a b) s) :=
    congrArg _ (fill_two_of_occupied_of_empty first second was isectlOf)
  have built := isectlOf_built ha hb
  have result := takeResponse_fill_bank_self rd (isectlOf a b) s
  have domain : (isectlOf a b).n.toNat = min a.n.toNat b.n.toNat := by rw [built.domain, minField_toNat]
  have width : (isectlOf a b).k.toNat = min a.k.toNat b.k.toNat := by rw [built.width, minField_toNat]
  have bytes := built.bc
  rw [minField_toNat, minField_toNat] at bytes
  refine ⟨_, _, done, rfl, fill_bank_self rd _ s, domain, width, bytes, fun e he => ?_,
    fun i hi => isectl_index_in_domains ha hb hi, fun x => built.padding_zero, otherBanksKept_of_exec done rfl,
    sameEnvironment_of_exec done⟩
  rw [exec_count_of_occupied result (by rwa [domain]), isectlOf_countRaw ha hb, bothNonZero, ← ite_and,
    apply_ite (BitVec.ofNat 32)]

/-! ### DIFF -/

/-- Settles O50: the loop's counts, and the sizes and the padding of what it builds. -/
theorem diffSubtracts : Obligations.DiffSubtracts := by
  intro s rd ra rb a b first second was ha _
  have done : exec (.diff rd ra rb) s = .next (fill rd (diffOf a b) s) :=
    congrArg _ (fill_two_of_occupied_of_empty first second was diffOf)
  have built := diffOf_built ha b
  have result := takeResponse_fill_bank_self rd (diffOf a b) s
  obtain ⟨infoN, infoK, infoBc⟩ := built.exec_info result
  rw [← wf_bc ha] at infoBc
  refine ⟨_, _, done, rfl, fill_bank_self rd _ s, fun e he => ?_, infoN, infoK, infoBc, fun x => built.padding_zero,
    otherBanksKept_of_exec done rfl, sameEnvironment_of_exec done⟩
  rw [exec_count_of_occupied result (by rwa [built.domain]), diffOf_countRaw ha b he, subtrahend]

/-! ### The sources -/

/-- A set operator leaves every occupied bank as it was: it neither frees nor rewrites, and what it fills was empty. -/
theorem occupied_kept_of_setOperator {c : Instr} {s t : State} {rd ra rb i : BankId} {p : PackedMultiset}
    (operator : c ∈ [Instr.compl rd ra, .isect rd ra rb, .isectl rd ra rb, .diff rd ra rb]) (h : exec c s = .next t)
    (was : s.bank i = .occupied p) : t.bank i = .occupied p := by
  cases bankEffect_of_exec h with
  | kept same => rw [same i, was]
  | filled empty _ => rw [fill_bank, if_neg (ne_of_occupied_of_empty was empty), was]
  | freed free => simp [free] at operator
  | rewritten _ new =>
    rcases new.inc_or_wrb with ⟨e, inc⟩ | ⟨idx, y, wrb⟩
    · simp [inc] at operator
    · simp [wrb] at operator

/-- Settles O51: the sources are occupied, hence kept, and none of them is the bank the result went into, so a later
command on a source has another destination. -/
theorem operatorsKeepTheirSources : Obligations.OperatorsKeepTheirSources := by
  intro s t u rd ra rb i c d a b first second operator h
  refine ⟨occupied_kept_of_setOperator operator h first, fun _ => occupied_kept_of_setOperator operator h second,
    fun was source writes later => ?_⟩
  have other : i ≠ rd := by
    rcases source with rfl | rfl
    · exact ne_of_occupied_of_empty first was
    · exact ne_of_occupied_of_empty second was
  have elsewhere : destination d ≠ some rd := by
    rw [writes]
    exact fun same => other (Option.some.inj same)
  rw [bank_of_exec_of_ne_destination later elsewhere, takeResponse_bank]

/-! ### A destination that is a source -/

/-- The two errors a destination that is a source can end in (42_set_operators.md R100). -/
def NoinstOrBusy (s t : State) : Prop := t = raise .noinst s ∨ t = raise .busy s

theorem NoinstOrBusy.needOccupied {i : BankId} {s : State} {go : PackedMultiset → State}
    (rest : ∀ p, s.bank i = .occupied p → NoinstOrBusy s (go p)) : NoinstOrBusy s (needOccupied i s go) := by
  cases hb : s.bank i with
  | empty => exact .inl (needOccupied_empty hb go)
  | occupied p => rw [needOccupied_occupied hb]; exact rest p hb

theorem NoinstOrBusy.needEmpty {i : BankId} {s : State} {p : PackedMultiset} (was : s.bank i = .occupied p)
    (go : State) : NoinstOrBusy s (needEmpty i s go) := .inr (needEmpty_occupied was go)

theorem NoinstOrBusy.only_source (i : BankId) (s : State) (go : PackedMultiset → State) :
    NoinstOrBusy s (Machine.needOccupied i s fun p => Machine.needEmpty i s (go p)) :=
  .needOccupied fun p was => .needEmpty was (go p)

theorem NoinstOrBusy.first_source (i j : BankId) (s : State) (go : PackedMultiset → PackedMultiset → State) :
    NoinstOrBusy s
      (Machine.needOccupied i s fun p => Machine.needOccupied j s fun q => Machine.needEmpty i s (go p q)) :=
  .needOccupied fun p was => .needOccupied fun q _ => .needEmpty was (go p q)

theorem NoinstOrBusy.second_source (i j : BankId) (s : State) (go : PackedMultiset → PackedMultiset → State) :
    NoinstOrBusy s
      (Machine.needOccupied j s fun p => Machine.needOccupied i s fun q => Machine.needEmpty i s (go p q)) :=
  .needOccupied fun p _ => .only_source i s (go p)

theorem NoinstOrBusy.outcome {s t : State} (h : NoinstOrBusy s t) :
    (.next t : Host.Outcome State Fault Refusal) = .next (raise .noinst s) ∨
      (.next t : Host.Outcome State Fault Refusal) = .next (raise .busy s) :=
  h.imp (congrArg _) (congrArg _)

/-- Settles O22: past the source's check its bank is occupied, so as the destination it is refused. -/
theorem destinationIsNeverASource : Obligations.DestinationIsNeverASource := by
  intro s i j c hc
  simp only [List.mem_cons, List.not_mem_nil, or_false] at hc
  rcases hc with rfl | rfl | rfl | rfl | rfl | rfl | rfl | rfl
  · exact (NoinstOrBusy.only_source i s fun a => fill i a s).outcome
  · exact (NoinstOrBusy.only_source i s fun a => fill i (complOf a) s).outcome
  · exact (NoinstOrBusy.first_source i j s fun a b => fill i (isectOf a b) s).outcome
  · exact (NoinstOrBusy.second_source i j s fun a b => fill i (isectOf a b) s).outcome
  · exact (NoinstOrBusy.first_source i j s fun a b => fill i (isectlOf a b) s).outcome
  · exact (NoinstOrBusy.second_source i j s fun a b => fill i (isectlOf a b) s).outcome
  · exact (NoinstOrBusy.first_source i j s fun a b => fill i (diffOf a b) s).outcome
  · exact (NoinstOrBusy.second_source i j s fun a b => fill i (diffOf a b) s).outcome

end Sys2Proof.Machine
end

section
/-! The raw byte commands (43_raw_byte_access.md R120 to R122): what RDB and WRB answer for a byte of the buffer, what
RDB answers after WRB, CREATE and COMPL, and the bytes a count is read from. -/

namespace Sys2Proof.Machine

/-! ### Each command by the bank it finds -/

/-- A byte as response data is the byte zero-extended (30_encoding.md R62). -/
theorem dataOf_byte (y : Byte) : dataOf y.toNat = y.setWidth 32 := by
  rw [dataOf, BitVec.ofNat_toNat]

theorem exec_rdb_of_occupied {s : State} {ra : BankId} {idx : BitVec 16} {p : PackedMultiset}
    (was : s.bank ra = .occupied p) (inside : idx.toNat < p.bc.toNat) :
    exec (.rdb ra idx) s = .next (respond .ok ((p.buckets.read idx.toNat).setWidth 32) s) := by
  rw [exec, execRdb, needOccupied_occupied was, if_neg (Nat.not_le.2 inside), dataOf_byte]

/-- What a bank holds once WRB has set byte `a` to `y`. -/
def PackedMultiset.setByte (p : PackedMultiset) (a : Nat) (y : Byte) : PackedMultiset :=
  { p with buckets := p.buckets.write a y }

@[simp] theorem setByte_n (p : PackedMultiset) (a : Nat) (y : Byte) : (p.setByte a y).n = p.n := rfl
@[simp] theorem setByte_k (p : PackedMultiset) (a : Nat) (y : Byte) : (p.setByte a y).k = p.k := rfl
@[simp] theorem setByte_bc (p : PackedMultiset) (a : Nat) (y : Byte) : (p.setByte a y).bc = p.bc := rfl

theorem read_setByte_self {p : PackedMultiset} (canonical : p.buckets.wf = true) (a : Nat) (y : Byte) :
    (p.setByte a y).buckets.read a = y := by
  rw [PackedMultiset.setByte, Memory.read_write canonical, if_pos rfl]

theorem read_setByte_other {p : PackedMultiset} (canonical : p.buckets.wf = true) {a b : Nat} (other : b ≠ a)
    (y : Byte) : (p.setByte a y).buckets.read b = p.buckets.read b := by
  rw [PackedMultiset.setByte, Memory.read_write canonical, if_neg other]

/-- WRB ends as a filling command does: its bank holds the changed instance and the response is `(OK, 0)`. -/
theorem exec_wrb_of_occupied {s : State} {rd : BankId} {idx : BitVec 16} {p : PackedMultiset}
    (was : s.bank rd = .occupied p) (inside : idx.toNat < p.bc.toNat) (y : Byte) :
    exec (.wrb rd idx y) s = .next (fill rd (p.setByte idx.toNat y) s) := by
  rw [exec, execWrb, needOccupied_occupied was, if_neg (Nat.not_le.2 inside), fill, PackedMultiset.setByte]

/-! ### RDB -/

/-- Counted from the most significant bit, the bits of byte `a` are the stream bits from `8 * a` (20_memory.md R35). -/
theorem streamBit_of_byte (m : Memory) (a : Nat) {x : Nat} (hx : x < 8) :
    m.streamBit (8 * a + x) = (m.read a).getLsbD (7 - x) := by
  have byte : (8 * a + x) / 8 = a := by omega
  have bit : (8 * a + x) % 8 = x := by omega
  rw [Memory.streamBit, byte, bit]

/-- Settles O54: the answer is the byte, whose bits `streamBit_of_byte` finds in the stream. -/
theorem rdbReturnsTheByte : Obligations.RdbReturnsTheByte := fun _ _ idx p was inside =>
  ⟨_, exec_rdb_of_occupied was inside, rfl, fun _ hx => (streamBit_of_byte p.buckets idx.toNat hx).symm⟩

/-! ### WRB -/

/-- Settles O55: WRB leaves `setByte` of the instance in its bank. -/
theorem wrbSetsTheByte : Obligations.WrbSetsTheByte := by
  intro s rd idx y p was canonical inside
  have written := exec_wrb_of_occupied was inside y
  exact ⟨_, p.setByte idx.toNat y, written, rfl, fill_bank_self rd _ s, setByte_n p _ y, setByte_k p _ y,
    setByte_bc p _ y, read_setByte_self canonical idx.toNat y, fun _ other => read_setByte_other canonical other y,
    otherBanksKept_of_exec written rfl, sameEnvironment_of_exec written⟩

/-! ### RDB after WRB, CREATE and COMPL (43_raw_byte_access.md R122) -/

theorem exec_rdb_of_setByte_self {t : State} {rd : BankId} {idx : BitVec 16} {p : PackedMultiset} {y : Byte}
    (holds : t.bank rd = .occupied (p.setByte idx.toNat y)) (canonical : p.buckets.wf = true)
    (inside : idx.toNat < p.bc.toNat) : exec (.rdb rd idx) t = .next (respond .ok (y.setWidth 32) t) := by
  rw [exec_rdb_of_occupied holds (by rwa [setByte_bc]), read_setByte_self canonical]

theorem exec_rdb_of_setByte_other {t : State} {rd : BankId} {idx idx' : BitVec 16} {p : PackedMultiset} {y : Byte}
    (holds : t.bank rd = .occupied (p.setByte idx.toNat y)) (canonical : p.buckets.wf = true)
    (inside : idx'.toNat < p.bc.toNat) (different : idx' ≠ idx) :
    exec (.rdb rd idx') t = .next (respond .ok ((p.buckets.read idx'.toNat).setWidth 32) t) := by
  have other : idx'.toNat ≠ idx.toNat := fun same => different (BitVec.eq_of_toNat_eq same)
  rw [exec_rdb_of_occupied holds (by rwa [setByte_bc]), read_setByte_other canonical other]

/-- A new instance has the bytes of its sizes, and all of them are 0. -/
theorem exec_rdb_of_newInst {t : State} {rd : BankId} {n idx : BitVec 16} {k : BitVec 4}
    (holds : t.bank rd = .occupied (newInst n k)) (le : k.toNat ≤ 8)
    (inside : idx.toNat < bucketsCount n.toNat k.toNat) : exec (.rdb rd idx) t = .next (respond .ok 0#32 t) := by
  rw [exec_rdb_of_occupied holds (by rwa [newInst_bc le]), newInst_buckets, Memory.read_zeroFilled]
  rfl

theorem read_complOf (a : PackedMultiset) {j : Nat} (hj : j < a.bc.toNat) :
    (complOf a).buckets.read j = ~~~ a.buckets.read j := by
  rw [complOf, Memory.read_tabulate, if_pos hj]

/-- Inverting a byte subtracts it from 255. -/
theorem setWidth_not_byte (y : Byte) : (~~~ y).setWidth 32 = BitVec.ofNat 32 (255 - y.toNat) := by
  rw [← dataOf_byte, dataOf, BitVec.toNat_not]

theorem exec_rdb_of_complOf {t : State} {rd : BankId} {idx : BitVec 16} {a : PackedMultiset}
    (holds : t.bank rd = .occupied (complOf a)) (inside : idx.toNat < a.bc.toNat) : exec (.rdb rd idx) t =
      .next (respond .ok (BitVec.ofNat 32 (255 - (a.buckets.read idx.toNat).toNat)) t) := by
  rw [exec_rdb_of_occupied holds inside, read_complOf a inside, setWidth_not_byte]

/-- Settles O56: each of the three commands leaves an instance in its bank, whose bytes RDB then reads. -/
theorem rawAccessLaws : Obligations.RawAccessLaws := by
  refine ⟨fun s rd idx idx' y p was wf inside inside' => ?_, fun s rd k n idx was pos le fits inside => ?_,
    fun s rd ra idx a source was inside => ?_⟩
  · have holds := takeResponse_fill_bank_self rd (p.setByte idx.toNat y) s
    exact ⟨_, exec_wrb_of_occupied was inside y, exec_rdb_of_setByte_self holds (wf_buckets wf) inside,
      exec_rdb_of_setByte_other holds (wf_buckets wf) inside'⟩
  · have width : (k.setWidth 4).toNat = k.toNat := setWidth_four le
    exact ⟨_, exec_create_of_empty was pos le fits,
      exec_rdb_of_newInst (takeResponse_fill_bank_self rd _ s) (by rwa [width]) (by rwa [width])⟩
  · exact ⟨_, exec_compl_of_occupied_of_empty source was,
      exec_rdb_of_complOf (takeResponse_fill_bank_self rd _ s) inside⟩

/-! ### The bytes of a count -/

/-- Two buffers with the same bytes at a field hold the same number there, for every width (20_memory.md R37). -/
theorem readField_congr_bytes {m m' : Memory} {k e : Nat} (first : m'.read (byteIndex e k) = m.read (byteIndex e k))
    (second : straddles e k = true → m'.read (byteIndex e k + 1) = m.read (byteIndex e k + 1)) :
    readField m' k e = readField m k e := by
  rw [byteIndex] at first second
  by_cases straddling : straddles e k = true
  · rw [readField_straddling straddling, readField_straddling straddling, Memory.readWindow, Memory.readWindow, first,
      second straddling]
  · rw [readField_within straddling, readField_within straddling, first]

/-- Settles O57: a count is the number in its field. -/
theorem countIsAFunctionOfItsBytes : Obligations.CountIsAFunctionOfItsBytes := by
  intro p q e sameWidth first second
  rw [PackedMultiset.countRaw, PackedMultiset.countRaw, sameWidth]
  exact readField_congr_bytes first second

end Sys2Proof.Machine
end

section
/-! The response on the ports (60_exceptions.md R130): its status as one of seven codes, and its data. -/

namespace Sys2Proof.Machine

theorem pendingResponse_eq_some_iff {s : State} {r : Response} :
    pendingResponse s = some r ↔ s.port = .responding r := by
  rw [pendingResponse]
  cases s.port <;> simp

theorem rspStatus_eq_some_iff {s : State} {v : BitVec 4} :
    rspStatus s = some v ↔ ∃ r, s.port = .responding r ∧ r.status.code = v := by
  simp only [rspStatus, Option.map_eq_some_iff, pendingResponse_eq_some_iff]

theorem rspData_eq_some_iff {s : State} {d : Word} :
    rspData s = some d ↔ ∃ r, s.port = .responding r ∧ r.data = d := by
  simp only [rspData, Option.map_eq_some_iff, pendingResponse_eq_some_iff]

theorem code_toNat_le_six (st : Status) : st.code.toNat ≤ 6 := by
  cases st <;> decide

/-- Settles O12: what stands on `rsp_status` is the code of a status, and the greatest code is 6. -/
theorem statusCodeIsOnThePort : Obligations.StatusCodeIsOnThePort := by
  refine ⟨fun s r pending => ⟨rspStatus_eq_some_iff.2 ⟨r, pending, rfl⟩, rspData_eq_some_iff.2 ⟨r, pending, rfl⟩⟩,
    fun s v driven => ?_, rfl, rfl, rfl, rfl, rfl, rfl, rfl⟩
  obtain ⟨r, -, rfl⟩ := rspStatus_eq_some_iff.1 driven
  exact code_toNat_le_six r.status

end Sys2Proof.Machine
end

section
/-! What an error leaves behind (60_exceptions.md R140, R141): the state as it was, with the error on the port, for one
command and for a sequence of them. -/

namespace Sys2Proof.Machine

/-! ### One command -/

/-- Of the three shapes of a next state only the error answers another status than `OK`. -/
theorem eq_raise_of_exec {c : Instr} {s t : State} {r : Response} (h : exec c s = .next t)
    (answered : t.port = .responding r) (failed : r.status ≠ .ok) : t = raise r.status s := by
  cases effect_of_exec h with
  | error e _ =>
    rw [raise_port] at answered
    cases answered
    rfl
  | answer d =>
    rw [respond_port] at answered
    cases answered
    exact absurd rfl failed
  | write rd b _ =>
    rw [respond_port] at answered
    cases answered
    exact absurd rfl failed

/-- The same for every word, an illegal one being answered by an error too. -/
theorem eq_raise_of_runWord {w : Word} {s t : State} {r : Response} (h : runWord w s = .next t)
    (answered : t.port = .responding r) (failed : r.status ≠ .ok) : t = raise r.status s := by
  cases decoded : decode w with
  | ok c =>
    rw [runWord_of_decode decoded] at h
    exact eq_raise_of_exec h answered failed
  | error x =>
    rw [runWord_of_error decoded] at h
    cases h
    rw [raise_port] at answered
    cases answered
    rfl

/-- Settles O23: the next state is `raise` of the status, whose data is 0 and which touches the port alone. -/
theorem errorsWriteNothing : Obligations.ErrorsWriteNothing := by
  intro w s t r h answered failed
  obtain rfl := eq_raise_of_runWord h answered failed
  rw [raise_port] at answered
  have data : r.data = 0#32 := by rw [← Port.responding.inj answered]
  exact ⟨data, rfl, rfl, cmdReady_iff.2 rfl⟩

/-! ### A sequence of commands -/

/-- A command issued is a command executed and its response taken. -/
theorem exec_of_issue {c : Instr} {s u : State} {r : Response} (h : issue c s = some (r, u)) :
    ∃ t, exec c s = .next t ∧ t.port = .responding r ∧ u = takeResponse t := by
  obtain ⟨t, a, ht, answered⟩ := exec_responds c s
  simp only [issue, ht, answered] at h
  cases h
  exact ⟨t, ht, answered, rfl⟩

/-- A failing command issued to an idle block leaves it as it was. -/
theorem eq_of_issue_of_failed {c : Instr} {s u : State} {r : Response} (idle : s.port = .idle)
    (h : issue c s = some (r, u)) (failed : r.status ≠ .ok) : u = s := by
  obtain ⟨t, ht, answered, rfl⟩ := exec_of_issue h
  rw [eq_raise_of_exec ht answered failed]
  exact takeResponse_of_idle idle

/-- A sequence of commands issued is the first one issued and then the others. -/
theorem issueAll_cons {c : Instr} {cs : List Instr} {s t : State} {rs : List Response}
    (h : issueAll (c :: cs) s = some (rs, t)) :
    ∃ r u rest, issue c s = some (r, u) ∧ issueAll cs u = some (rest, t) ∧ rs = r :: rest := by
  rw [issueAll] at h
  split at h
  · cases h
  · next r u issued =>
    split at h
    · cases h
    · next rest v run =>
      cases h
      exact ⟨r, u, rest, issued, run, rfl⟩

/-- Settles O24, by induction on the commands: each one fails and leaves the idle block as it was. -/
theorem failedCommandsLeaveTheState : Obligations.FailedCommandsLeaveTheState := by
  intro cs
  induction cs with
  | nil =>
    intro s t rs _ h _
    cases h
    rfl
  | cons c cs ih =>
    intro s t rs idle h failed
    obtain ⟨r, u, rest, issued, run, rfl⟩ := issueAll_cons h
    obtain rfl := eq_of_issue_of_failed idle issued (failed r (.head _))
    exact ih u t rest idle run fun x hx => failed x (.tail _ hx)

end Sys2Proof.Machine
end

section
/-! The status a command answers against the error table of 60_exceptions.md R138 and R139: the checks of each command
come in the order of its row, so the row decides the status, and with it whether the command does anything at all. -/

namespace Sys2Proof.Machine

/-! ### The conditions of the table -/

theorem isEmpty_iff {s : State} {i : BankId} : isEmpty s i = true ↔ s.bank i = .empty := by
  rw [isEmpty]
  cases s.bank i <;> simp [Bank.valid]

theorem isOccupied_iff {s : State} {i : BankId} : isOccupied s i = true ↔ ∃ p, s.bank i = .occupied p := by
  rw [isOccupied]
  cases s.bank i <;> simp [Bank.valid]

theorem isEmpty_of_occupied {s : State} {i : BankId} {p : PackedMultiset} (was : s.bank i = .occupied p) :
    isEmpty s i = false := by
  simp [isEmpty, was, Bank.valid]

theorem isOccupied_eq_false_iff {s : State} {i : BankId} : isOccupied s i = false ↔ s.bank i = .empty := by
  rw [isOccupied]
  cases s.bank i <;> simp [Bank.valid]

theorem outOfDomain_of_occupied {s : State} {i : BankId} {p : PackedMultiset} (was : s.bank i = .occupied p) (e : Nat) :
    outOfDomain s i e = decide (p.n.toNat < e) := by
  simp only [outOfDomain, was]

theorem outOfBuffer_of_occupied {s : State} {i : BankId} {p : PackedMultiset} (was : s.bank i = .occupied p)
    (idx : Nat) : outOfBuffer s i idx = decide (p.bc.toNat ≤ idx) := by
  simp only [outOfBuffer, was]

/-! ### The first error of a row -/

/-- The first error is one whose condition holds. -/
theorem mem_of_firstError {row : List (Status × Bool)} {e : Status} (h : firstError row = e) (he : e ≠ .ok) :
    (e, true) ∈ row := by
  rw [firstError] at h
  cases found : Status.priority.find? (raises row) with
  | none =>
    rw [found] at h
    exact absurd h.symm he
  | some x =>
    rw [found] at h
    obtain rfl : x = e := h
    have raised : raises row x = true := List.find?_some found
    exact List.contains_iff_mem.1 raised

theorem mem_priority {e : Status} (he : e ≠ .ok) : e ∈ Status.priority := by
  cases e with
  | ok => exact absurd rfl he
  | _ => decide

/-- A row with a condition that holds has a first error. -/
theorem firstError_ne_ok_of_mem {row : List (Status × Bool)} {e : Status} (he : e ≠ .ok) (h : (e, true) ∈ row) :
    firstError row ≠ .ok := by
  have raised : raises row e = true := List.contains_iff_mem.2 h
  obtain ⟨x, found⟩ := Option.isSome_iff_exists.1 (List.find?_isSome.2 ⟨e, mem_priority he, raised⟩)
  have isError : x ∈ Status.priority := List.mem_of_find?_eq_some found
  rw [firstError, found, Option.getD_some]
  rintro rfl
  exact absurd isError (by decide)

/-! The four shapes a row of the table has. -/

theorem firstError_noinst : ∀ a : Bool, firstError [(.noinst, a)] = if a then .noinst else .ok := by decide

theorem firstError_noinst_busy : ∀ a b : Bool,
    firstError [(.noinst, a), (.busy, b)] = if a then .noinst else if b then .busy else .ok := by decide

theorem firstError_noinst_range : ∀ a b : Bool,
    firstError [(.noinst, a), (.range, b)] = if a then .noinst else if b then .range else .ok := by decide

theorem firstError_busy_width_capacity : ∀ a b c : Bool, firstError [(.busy, a), (.width, b), (.capacity, c)] =
    if a then .busy else if b then .width else if c then .capacity else .ok := by decide

/-! ### The status along the operand forms -/

/-- The state holds a response with this status. -/
def HasStatus (st : Status) (t : State) : Prop := ∃ d, t.port = .responding ⟨st, d⟩

theorem HasStatus.respond (st : Status) (d : Word) (s : State) : HasStatus st (respond st d s) := ⟨d, rfl⟩

theorem HasStatus.raise (e : Status) (s : State) : HasStatus e (raise e s) := .respond e 0#32 s

theorem HasStatus.needOccupied {i : BankId} {s : State} {go : PackedMultiset → State} {st : Status}
    (rest : ∀ p, s.bank i = .occupied p → HasStatus st (go p)) :
    HasStatus (if isEmpty s i then .noinst else st) (needOccupied i s go) := by
  cases was : s.bank i with
  | empty =>
    rw [needOccupied_empty was, if_pos (isEmpty_iff.2 was)]
    exact .raise _ s
  | occupied p =>
    rw [needOccupied_occupied was, if_neg (by simp [isEmpty_of_occupied was])]
    exact rest p was

theorem HasStatus.needEmpty {i : BankId} {s go : State} {st : Status} (rest : HasStatus st go) :
    HasStatus (if isOccupied s i then .busy else st) (needEmpty i s go) := by
  cases was : s.bank i with
  | empty =>
    rw [needEmpty_empty was, if_neg (by simp [isOccupied_eq_false_iff.2 was])]
    exact rest
  | occupied p =>
    rw [needEmpty_occupied was, if_pos (isOccupied_iff.2 ⟨p, was⟩)]
    exact .raise _ s

/-- A check that the condition `b` of the table spells out. -/
theorem HasStatus.check {P : Prop} [Decidable P] {b : Bool} {e st : Status} {s go : State} (same : b = decide P)
    (rest : HasStatus st go) : HasStatus (if b then e else st) (if P then Machine.raise e s else go) := by
  subst same
  by_cases h : P
  · simpa [h] using HasStatus.raise e s
  · simpa [h] using rest

/-- A filling command with one source. -/
theorem HasStatus.fill_one (rd ra : BankId) (f : PackedMultiset → PackedMultiset) (s : State) :
    HasStatus (firstError [(.noinst, isEmpty s ra), (.busy, isOccupied s rd)])
      (Machine.needOccupied ra s fun a => Machine.needEmpty rd s (fill rd (f a) s)) := by
  rw [firstError_noinst_busy]
  exact .needOccupied fun a _ => .needEmpty (.respond .ok _ _)

/-- A filling command with two sources: the table has one cell for both, the command looks at the first one first. -/
theorem HasStatus.fill_two (rd ra rb : BankId) (f : PackedMultiset → PackedMultiset → PackedMultiset) (s : State) :
    HasStatus (firstError [(.noinst, isEmpty s ra || isEmpty s rb), (.busy, isOccupied s rd)])
      (Machine.needOccupied ra s fun a =>
        Machine.needOccupied rb s fun b => Machine.needEmpty rd s (fill rd (f a b) s)) := by
  have oneAfterTheOther : firstError [(.noinst, isEmpty s ra || isEmpty s rb), (.busy, isOccupied s rd)] =
      if isEmpty s ra then .noinst else firstError [(.noinst, isEmpty s rb), (.busy, isOccupied s rd)] := by
    cases isEmpty s ra
    · rfl
    · rw [firstError_noinst_busy]
      rfl
  rw [oneAfterTheOther]
  exact .needOccupied fun a _ => .fill_one rd rb (f a) s

/-! ### The status of every command -/

/-- Settles O25: each command makes the checks of its row, in the order of 60_exceptions.md R139. -/
theorem statusIsTheFirstErrorThatHolds : Obligations.StatusIsTheFirstErrorThatHolds := by
  suffices status : ∀ c s, ∃ t, exec c s = .next t ∧ HasStatus (firstError (errorRow s c)) t by
    intro c s
    obtain ⟨t, ht, d, answered⟩ := status c s
    exact ⟨t, d, ht, answered⟩
  intro c s
  cases c with
  | create rd k n =>
    refine ⟨_, rfl, ?_⟩
    rw [errorRow, firstError_busy_width_capacity]
    refine .needEmpty (.check ?_ (.check rfl (.respond .ok _ _)))
    rw [decide_eq_decide, kMin, kMax]
    omega
  | free rd =>
    refine ⟨_, rfl, ?_⟩
    rw [errorRow, firstError_noinst]
    exact .needOccupied fun _ _ => .respond .ok _ _
  | copy rd ra => exact ⟨_, rfl, .fill_one rd ra (fun a => a) s⟩
  | info ra sel =>
    refine ⟨_, rfl, ?_⟩
    rw [errorRow, firstError_noinst]
    by_cases valid : sel = .valid
    · simpa [valid] using HasStatus.respond .ok _ s
    · simpa [valid] using HasStatus.needOccupied fun _ _ => HasStatus.respond .ok _ s
  | count ra e =>
    refine ⟨_, rfl, ?_⟩
    rw [errorRow, firstError_noinst_range]
    exact .needOccupied fun a was => .check (outOfDomain_of_occupied was _) (.respond .ok _ _)
  | inc rd e =>
    refine ⟨_, rfl, ?_⟩
    rw [errorRow, firstError_noinst]
    exact .needOccupied fun _ _ => .respond .ok _ _
  | compl rd ra => exact ⟨_, rfl, .fill_one rd ra complOf s⟩
  | isect rd ra rb => exact ⟨_, rfl, .fill_two rd ra rb isectOf s⟩
  | isectl rd ra rb => exact ⟨_, rfl, .fill_two rd ra rb isectlOf s⟩
  | diff rd ra rb => exact ⟨_, rfl, .fill_two rd ra rb diffOf s⟩
  | rdb ra idx =>
    refine ⟨_, rfl, ?_⟩
    rw [errorRow, firstError_noinst_range]
    exact .needOccupied fun a was => .check (outOfBuffer_of_occupied was _) (.respond .ok _ _)
  | wrb rd idx byte =>
    refine ⟨_, rfl, ?_⟩
    rw [errorRow, firstError_noinst_range]
    exact .needOccupied fun a was => .check (outOfBuffer_of_occupied was _) (.respond .ok _ _)

/-- The table read forwards: a command whose row has a first error raises it. -/
theorem exec_eq_raise {c : Instr} {s : State} {e : Status} (he : e ≠ .ok) (first : firstError (errorRow s c) = e) :
    exec c s = .next (raise e s) := by
  obtain ⟨t, d, ht, answered⟩ := statusIsTheFirstErrorThatHolds c s
  rw [first] at answered
  rw [ht, eq_raise_of_exec ht answered he]

/-- The table read backwards: an answered error is the first of the row. -/
theorem firstError_of_exec {c : Instr} {s t : State} {e : Status} {d : Word} (h : exec c s = .next t)
    (answered : t.port = .responding ⟨e, d⟩) : firstError (errorRow s c) = e := by
  obtain ⟨u, d', hu, status⟩ := statusIsTheFirstErrorThatHolds c s
  rw [hu] at h
  cases h
  rw [status] at answered
  cases answered
  rfl

end Sys2Proof.Machine
end

section
/-! The errors one by one (60_exceptions.md R132 to R136), and the two events that are no errors (R137). -/

namespace Sys2Proof.Machine

/-! ### ERR_NOINST and ERR_BUSY -/

/-- Settles O27: the bank is one that the `NOINST` cell of the command's row speaks of, and that cell comes first. -/
theorem emptyBankIsRefused : Obligations.EmptyBankIsRefused := by
  intro s i rd j sel e y was
  have empty : isEmpty s i = true := isEmpty_iff.2 was
  have refused {c : Instr} (first : firstError (errorRow s c) = .noinst) : exec c s = .next (raise .noinst s) :=
    exec_eq_raise (by decide) first
  have oneBank : firstError [(.noinst, isEmpty s i)] = .noinst := by rw [empty]; rfl
  have thenBusy {a b : Bool} (ha : a = true) : firstError [(.noinst, a), (.busy, b)] = .noinst := by
    rw [firstError_noinst_busy, if_pos ha]
  have thenRange (b : Bool) : firstError [(.noinst, isEmpty s i), (.range, b)] = .noinst := by
    rw [firstError_noinst_range, if_pos empty]
  have firstSource : (isEmpty s i || isEmpty s j) = true := by rw [empty, Bool.true_or]
  have secondSource : (isEmpty s j || isEmpty s i) = true := by rw [empty, Bool.or_true]
  exact ⟨refused oneBank, refused oneBank, refused (thenRange _), refused (thenRange _), refused (thenRange _),
    fun field => refused (by rw [errorRow, decide_eq_true field, Bool.and_true, oneBank]),
    refused (thenBusy empty), refused (thenBusy empty), refused (thenBusy firstSource),
    refused (thenBusy secondSource), refused (thenBusy firstSource), refused (thenBusy secondSource),
    refused (thenBusy firstSource), refused (thenBusy secondSource)⟩

/-- A command with a condition of its row that holds leaves every bank as it was. -/
theorem banksKept_of_mem_errorRow {c : Instr} {s t : State} {e : Status} (he : e ≠ .ok)
    (holds : (e, true) ∈ errorRow s c) (h : exec c s = .next t) : banksKept s t := by
  rw [exec_eq_raise (firstError_ne_ok_of_mem he holds) rfl] at h
  cases h
  exact raise_bank _ s

/-- A filling command has the `BUSY` cell in its row, whatever its sources are. -/
theorem busy_mem_errorRow {s : State} {rd ra rb : BankId} {k : BitVec 8} {n : BitVec 16} {c : Instr}
    (occupied : isOccupied s rd = true) (filling : c ∈ [.create rd k n, .copy rd ra, .compl rd ra, .isect rd ra rb,
      .isectl rd ra rb, .diff rd ra rb]) : (.busy, true) ∈ errorRow s c := by
  simp only [List.mem_cons, List.not_mem_nil, or_false] at filling
  rcases filling with rfl | rfl | rfl | rfl | rfl | rfl <;> simp [errorRow, occupied]

/-- Settles O28: with the sources occupied `BUSY` is the first error of the row; with any sources some error is raised,
and an error overwrites nothing. -/
theorem occupiedDestinationIsRefused : Obligations.OccupiedDestinationIsRefused := by
  intro s rd ra rb k n p a b was
  have occupied : isOccupied s rd = true := isOccupied_iff.2 ⟨p, was⟩
  have refused {c : Instr} (first : firstError (errorRow s c) = .busy) : exec c s = .next (raise .busy s) :=
    exec_eq_raise (by decide) first
  have noEmptySource {x : Bool} (hx : x = false) :
      firstError [(.noinst, x), (.busy, isOccupied s rd)] = .busy := by
    rw [hx, occupied]
    rfl
  have both (ha : s.bank ra = .occupied a) (hb : s.bank rb = .occupied b) :
      (isEmpty s ra || isEmpty s rb) = false := by
    rw [isEmpty_of_occupied ha, isEmpty_of_occupied hb, Bool.or_false]
  refine ⟨refused ?_, fun ha => ?_, fun ha hb => ?_, fun c t filling h => ?_⟩
  · rw [errorRow, firstError_busy_width_capacity, if_pos occupied]
  · have one := isEmpty_of_occupied ha
    exact ⟨refused (noEmptySource one), refused (noEmptySource one)⟩
  · have two := both ha hb
    exact ⟨refused (noEmptySource two), refused (noEmptySource two), refused (noEmptySource two)⟩
  · rw [banksKept_of_mem_errorRow (by decide) (busy_mem_errorRow occupied filling) h rd, was]

/-! ### ERR_WIDTH and ERR_CAPACITY -/

theorem create_of_width_mem {s : State} {c : Instr} (h : (.width, true) ∈ errorRow s c) :
    ∃ rd k n, c = .create rd k n ∧ (k.toNat = 0 ∨ 9 ≤ k.toNat) := by
  cases c with
  | create rd k n =>
    have outside : k.toNat = 0 ∨ 8 < k.toNat := by simpa [errorRow] using h
    exact ⟨rd, k, n, rfl, outside⟩
  | _ => simp [errorRow] at h

/-- Settles O29: the width check comes right after the destination's, and no other row has a `WIDTH` cell. -/
theorem widthErrorIsOfCreateAlone : Obligations.WidthErrorIsOfCreateAlone := by
  refine ⟨fun s rd k n was outside => ?_, fun c s t d h answered => ?_⟩
  · rw [exec, execCreate, needEmpty_empty was, createIn_width outside]
  · exact create_of_width_mem (mem_of_firstError (firstError_of_exec h answered) (by decide))

theorem create_of_capacity_mem {s : State} {c : Instr} (h : (.capacity, true) ∈ errorRow s c) :
    ∃ rd k n, c = .create rd k n := by
  cases c with
  | create rd k n => exact ⟨rd, k, n, rfl⟩
  | _ => simp [errorRow] at h

theorem firstError_eq_capacity_iff : ∀ a b c : Bool,
    firstError [(.busy, a), (.width, b), (.capacity, c)] = .capacity ↔ a = false ∧ b = false ∧ c = true := by decide

/-- Settles O30: where `CAPACITY` is the first error of a CREATE its bank is empty and its width legal, and a legal width
never asks for more than 65536 bytes. -/
theorem capacityErrorIsOfCreateAlone : Obligations.CapacityErrorIsOfCreateAlone := by
  refine ⟨fun s rd k n was pos le tooBig => ?_, fun c s t d h answered => ?_⟩
  · rw [exec, execCreate, needEmpty_empty was, createIn_capacity pos le tooBig]
  · have first : firstError (errorRow s c) = .capacity := firstError_of_exec h answered
    obtain ⟨rd, k, n, rfl⟩ := create_of_capacity_mem (mem_of_firstError first (by decide))
    obtain ⟨unoccupied, width, capacity⟩ := (firstError_eq_capacity_iff _ _ _).1 first
    have legal : 1 ≤ k.toNat ∧ k.toNat ≤ 8 := not_not.1 (of_decide_eq_false width)
    have tooBig : s.cfg.bmax < bucketsCount n.toNat k.toNat := of_decide_eq_true capacity
    have limit : bucketsCount n.toNat k.toNat ≤ 65536 := bucketsCount_le_limit (Nat.le_of_lt_succ n.isLt) legal.2
    have unchanged : t = raise .capacity s := eq_raise_of_exec h answered nofun
    refine ⟨by omega, rd, k, n, rfl, tooBig, ?_⟩
    rw [unchanged, raise_bank, isOccupied_eq_false_iff.1 unoccupied]

/-! ### ERR_RANGE -/

theorem exec_count_of_outOfDomain {s : State} {i : BankId} {e : BitVec 16} {p : PackedMultiset}
    (was : s.bank i = .occupied p) (outside : p.n.toNat < e.toNat) :
    exec (.count i e) s = .next (raise .range s) := by
  rw [exec, execCount, needOccupied_occupied was, if_pos outside]

theorem exec_rdb_of_outOfBuffer {s : State} {i : BankId} {idx : BitVec 16} {p : PackedMultiset}
    (was : s.bank i = .occupied p) (outside : p.bc.toNat ≤ idx.toNat) :
    exec (.rdb i idx) s = .next (raise .range s) := by
  rw [exec, execRdb, needOccupied_occupied was, if_pos outside]

theorem exec_wrb_of_outOfBuffer {s : State} {i : BankId} {idx : BitVec 16} {p : PackedMultiset}
    (was : s.bank i = .occupied p) (outside : p.bc.toNat ≤ idx.toNat) (y : Byte) :
    exec (.wrb i idx y) s = .next (raise .range s) := by
  rw [exec, execWrb, needOccupied_occupied was, if_pos outside]

/-- The three rows with a `RANGE` cell. -/
theorem outOfRange_of_range_mem {s : State} {c : Instr} (h : (.range, true) ∈ errorRow s c) :
    (∃ i e, c = .count i e ∧ outOfDomain s i e.toNat = true) ∨
      (∃ i idx, c = .rdb i idx ∧ outOfBuffer s i idx.toNat = true) ∨
      ∃ i idx y, c = .wrb i idx y ∧ outOfBuffer s i idx.toNat = true := by
  cases c with
  | count i e => exact .inl ⟨i, e, rfl, by simpa [errorRow] using h⟩
  | rdb i idx => exact .inr (.inl ⟨i, idx, rfl, by simpa [errorRow] using h⟩)
  | wrb i idx y => exact .inr (.inr ⟨i, idx, y, rfl, by simpa [errorRow] using h⟩)
  | _ => simp [errorRow] at h

/-- Settles O31: the check of each of the three commands, and no other row has a `RANGE` cell. -/
theorem rangeErrorIsOfThreeCommands : Obligations.RangeErrorIsOfThreeCommands := by
  refine ⟨fun s i e y p was => ⟨exec_count_of_outOfDomain was, fun outside =>
    ⟨exec_rdb_of_outOfBuffer was outside, exec_wrb_of_outOfBuffer was outside y⟩⟩, fun c s t d h answered => ⟨?_, ?_⟩⟩
  · obtain rfl := eq_raise_of_exec h answered nofun
    rw [raise_port] at answered
    cases answered
    rfl
  · exact outOfRange_of_range_mem (mem_of_firstError (firstError_of_exec h answered) (by decide))

/-! ### INC is silent -/

theorem increment_eq_self {p : PackedMultiset} {e : Nat} (h : p.n.toNat < e ∨ p.countRaw e = maxCount p.k.toNat) :
    p.increment e = p := by
  rcases increment_cases p e with ⟨same, -⟩ | ⟨-, inside, unsaturated⟩
  · exact same
  · rcases h with outside | saturated
    · exact absurd inside (Nat.not_le.2 outside)
    · exact absurd saturated unsaturated

/-- Settles O32: every INC on an occupied bank answers `(OK, 0)`, and one that changes nothing in the bank writes back
what was there. -/
theorem incIsSilent : Obligations.IncIsSilent := by
  intro s rd e p was
  refine ⟨fun silent => ?_, _, exec_inc_of_occupied e was, respond_port _ _ _⟩
  rw [exec_inc_of_occupied e was, increment_eq_self silent, ← was, setBank_bank]
  rfl

end Sys2Proof.Machine
end

section
/-! Reset and progress (70_reset_and_hazards.md R150, R152, R160): the step is total, a command in flight is answered,
and a reset that lasts leaves the block empty. -/

namespace Sys2Proof.Machine

/-! ### Every command is answered -/

/-- Every word, a command of the table or not, is answered with a response, and `BMAX` and the host's list are kept. -/
theorem runWord_responds (w : Word) (s : State) :
    ∃ t r, runWord w s = .next t ∧ t.port = .responding r ∧ sameEnvironment s t := by
  cases decoded : decode w with
  | ok c =>
    obtain ⟨t, r, ht, answered⟩ := exec_responds c s
    exact ⟨t, r, (runWord_of_decode decoded s).trans ht, answered, sameEnvironment_of_exec ht⟩
  | error x => exact ⟨_, _, runWord_of_error decoded s, raise_port _ s, rfl, rfl⟩

/-- A response after a step was there before it or answers a command in flight. -/
theorem responding_or_executing_of_step {s t : State} {r : Response} (h : step s = .next t)
    (answered : t.port = .responding r) : s.port = .responding r ∨ ∃ w, s.port = .executing w := by
  cases kind_of_step h with
  | reset _ => nomatch answered
  | accept _ _ _ => nomatch answered
  | take _ _ _ _ => nomatch answered
  | wait _ _ => exact .inl answered
  | illegal _ w executing _ _ => exact .inr ⟨w, executing⟩
  | run _ w executing _ _ _ _ => exact .inr ⟨w, executing⟩

/-- Settles O13: the edge that executes a word answers it, and no other edge brings a response. -/
theorem everyCommandIsAnswered : Obligations.EveryCommandIsAnswered := by
  refine ⟨fun s => (step_kind s).imp fun _ => And.left, fun s w executing noReset => ?_,
    fun _ _ _ => responding_or_executing_of_step⟩
  rw [step_execute noReset executing]
  exact runWord_responds w (advance s)

/-! ### Reset -/

theorem step_reset {s : State} (reset : (sample s).rst = true) : step s = .next (resetBlock (advance s)) := by
  rw [step, clockEdge, if_pos reset]

/-- While the host's list lasts, the block samples its first entry. -/
theorem sample_mem_take {s : State} (driven : 0 < s.host.length) (m : Nat) : sample s ∈ s.host.take (m + 1) := by
  obtain ⟨p, rest, host⟩ := List.exists_cons_of_length_pos driven
  simp [sample, host]

/-- A reset that lasts `m + 1` edges comes to one reset with those edges past: at a block already reset another edge
only uses up the host's pins. -/
theorem run_reset {m : Nat} {s : State} (inside : m < s.host.length) (held : ∀ p ∈ s.host.take (m + 1), p.rst = true) :
    Host.Core.run core (m + 1) s = .next (resetBlock { s with host := s.host.drop (m + 1) }) := by
  induction m generalizing s with
  | zero =>
    have reset := held _ (sample_mem_take inside 0)
    rw [run_next (step_reset reset), List.drop_one]
    rfl
  | succ m ih =>
    have reset := held _ (sample_mem_take (Nat.zero_lt_of_lt inside) (m + 1))
    have inside' : m < s.host.tail.length := by
      rw [List.length_tail]
      omega
    have held' : ∀ p ∈ s.host.tail.take (m + 1), p.rst = true := fun p hp =>
      held p (List.mem_of_mem_tail (by rwa [List.tail_take_eq_take_tail, Nat.add_sub_cancel]))
    rw [run_next (step_reset reset), ih (s := resetBlock (advance s)) inside' held', resetBlock_host, advance_host,
      List.drop_tail]
    rfl

/-- Settles O15: the block is in the state a single reset leaves, whatever it was doing before. -/
theorem resetEmptiesTheBlock : Obligations.ResetEmptiesTheBlock := by
  intro m s inside held
  exact ⟨_, run_reset inside held, resetBlock_bank _, rfl, cmdReady_iff.2 rfl, rfl, rfl, rfl⟩

end Sys2Proof.Machine
end
